-- ==== Sys2Proof/Word.lean ====
section
/-! DEFINITION. The value types of the core: bytes, 16-bit words, the 12-bit immediate address and the 4-bit number (rules R7, R9), and the indices of registers and keys (rules R20, R30). -/

namespace Sys2Proof

/-- A `u8` of rule R7: a general register, a timer, a memory byte, the immediate `nn`. -/
abbrev Byte := BitVec 8

/-- A `u16` of rule R7: `I`, `PC`, a call-stack slot, an instruction word, an address. -/
abbrev Word := BitVec 16

/-- The 12-bit address `nnn` of rule R9. -/
abbrev Addr12 := BitVec 12

/-- The 4-bit number `n` of rule R9, and any other nibble of a word. -/
abbrev Nibble := BitVec 4

/-- The index of a general register, 0 to 15 (rule R20): the value of an `x` or `y` field. -/
abbrev Reg := Fin 16

/-- The register that doubles as the flag output, VF (rule R22). -/
abbrev regF : Reg := 15

end Sys2Proof
end

