-- ==== Sys2Proof/Config.lean ====
section
/-! DEFINITION. The parameters of rule R6 (00_scope.md) at the values this hardware takes, and the one free value of the model, the random input of rule R129 (41_alu.md). -/

namespace Sys2Proof.Config

/-- `MEM_SIZE`, bytes of Memory (rule R6; the spec's decision D1, log 1). -/
abbrev memSize : Nat := 4095

/-- `PROG_BASE`, the load address and the reset value of `PC` (rule R6). -/
abbrev progBase : Nat := 0x200

/-- `ROM_MAX`, the largest ROM (rule R6). -/
abbrev romMax : Nat := memSize - progBase

/-- `STACK_DEPTH`, call-stack slots (rule R6; the spec's decision D5, log 5). -/
abbrev stackDepth : Nat := 16

/-- `DISP_W`, pixel columns (rule R6). -/
abbrev dispW : Nat := 64

/-- `DISP_H`, pixel rows (rule R6). -/
abbrev dispH : Nat := 32

/-- `NKEYS`, slots of the input latch (rule R6). -/
abbrev nKeys : Nat := 16

/-- `FONT_BASE`, where the glyphs start (rule R6). -/
abbrev fontBase : Nat := 0

/-- `GLYPH_BYTES`, bytes of one glyph (rule R6). -/
abbrev glyphBytes : Nat := 5

/-- `FONT`, the 80 glyph bytes, five a digit (rule R60; the spec's decision D4 from general knowledge, log 2).
No statement of this package rests on one of these bytes. -/
def font : List Byte :=
  [0xF0, 0x90, 0x90, 0x90, 0xF0] ++ [0x20, 0x60, 0x20, 0x20, 0x70] ++
  [0xF0, 0x10, 0xF0, 0x80, 0xF0] ++ [0xF0, 0x10, 0xF0, 0x10, 0xF0] ++
  [0x90, 0x90, 0xF0, 0x10, 0x10] ++ [0xF0, 0x80, 0xF0, 0x10, 0xF0] ++
  [0xF0, 0x80, 0xF0, 0x90, 0xF0] ++ [0xF0, 0x10, 0x20, 0x40, 0x40] ++
  [0xF0, 0x90, 0xF0, 0x90, 0xF0] ++ [0xF0, 0x90, 0xF0, 0x10, 0xF0] ++
  [0xF0, 0x90, 0xF0, 0x90, 0x90] ++ [0xE0, 0x90, 0xE0, 0x90, 0xE0] ++
  [0xF0, 0x80, 0x80, 0x80, 0xF0] ++ [0xE0, 0x90, 0x90, 0x90, 0xE0] ++
  [0xF0, 0x80, 0xF0, 0x80, 0xF0] ++ [0xF0, 0x80, 0xF0, 0x80, 0x80]

/-- `MEM_FILL`, the reset value of a byte that is neither font nor ROM (rule R6; the spec's decision D4, log 2). -/
def memFill : Byte := 0x00

/-- The random input `rnd()` of rule R129: the byte drawn by the `k`-th executed Cxnn. A FREE VALUE (log 12): it has no
body, so a claim holds for every value of every draw. -/
opaque rnd : Nat → Byte

end Sys2Proof.Config
end

