-- ==== Sys2Proof/Machine/State.lean ====
section
/-! DEFINITION. The state of the core as plain data (10_state.md, rules R20 to R36), the reasons a run can stop, and the state right after reset (rule R38). -/

namespace Sys2Proof.Machine

/-- The run-time errors of rule R200 (60_exceptions.md), the values of `ERR.cause`. -/
inductive ErrCause where
  /-- Code 0: no error so far. -/
  | none
  /-- Code 1: a word of families 0, 8, E, F that is no instruction; reported, the core runs on (rule R201). -/
  | unknownSubOpcode
  /-- Code 2: a word of family 5 or B; the core halts (rule R202). -/
  | unknownFamily
  /-- Code 3: 00EE on an empty call stack; the core halts (rule R203). -/
  | stackUnderflow
  /-- Code 4: 2nnn on a full call stack; the core halts (rule R204). -/
  | stackOverflow
  deriving DecidableEq, Repr

/-- The error record `ERR` of rule R33. -/
structure ErrRecord where
  cause : ErrCause
  word : Word
  addr : Word
  deriving DecidableEq, Repr

/-- `DISP` of rule R29: `DISP_H` rows, top to bottom, of `DISP_W` pixels, left to right; `true` is on. -/
abbrev Grid := Vector (Vector Bool Config.dispW) Config.dispH

/-- `MEM` of rule R28 as a list of cells: indices strictly rising, and no cell that holds what an unlisted index reads as
(`Memory.wf`, Machine/Ops.lean). -/
abbrev Memory := List Host.Cell

/-- Every piece of state of rules R20 to R33, and `draws`, which is the model's own (log 12). -/
structure State where
  /-- `V[0]` to `V[15]` (R20). -/
  v : Vector Byte 16
  /-- The address register `I` (R23). -/
  i : Word
  /-- The program counter (R25, R26). -/
  pc : Word
  /-- The call-stack slots (R24). -/
  stack : Vector Word Config.stackDepth
  /-- `SP`, how many return addresses are saved, 0 to `STACK_DEPTH` (R24). -/
  sp : Fin (Config.stackDepth + 1)
  /-- The delay timer (R27). -/
  dt : Byte
  /-- The sound timer (R27). -/
  st : Byte
  /-- Memory (R28). -/
  mem : Memory
  /-- The display (R29). -/
  disp : Grid
  /-- The input latch, `true` is held (R30). -/
  key : Vector Bool Config.nKeys
  /-- The display-dirty signal (R31). -/
  dirty : Bool
  /-- The halt latch (R32). -/
  halted : Bool
  /-- The error record (R33). -/
  err : ErrRecord
  /-- How many Cxnn have been executed: the model's counter of the random input (log 12). -/
  draws : Nat
  deriving DecidableEq, Repr

/-- Why the machine stops with a fault. -/
inductive Fault where
  /-- Raised by the Reset operation alone (`Machine.hostReset`), never by a step: the ROM is longer than
  `MEM_SIZE - 0x200` bytes and no machine exists (rules R221, R243). Safe: the spec names this failure. -/
  | loadError
  deriving DecidableEq, Repr

/-- Why an instruction has no meaning. -/
inductive Refusal where
  /-- Raised by an arm of `exec` whose instruction has no meaning yet. No arm raises it. Safe: the model stops. -/
  | notModelled (mnemonic : String)
  deriving DecidableEq, Repr

/-- What a meaning, a step or a host operation answers. -/
abbrev Result := Host.Outcome State Fault Refusal

/-- The state after a Reset with the empty ROM (rules R38, R241, R242): no cell is listed, so every index reads as its
reset content. Where the values come from is in logs 2, 6, 7, 12 and 19. -/
def State.reset : State where
  v := Vector.replicate 16 0x00
  i := 0x0000
  pc := BitVec.ofNat 16 Config.progBase
  stack := Vector.replicate Config.stackDepth 0x0000
  sp := 0
  dt := 0x00
  st := 0x00
  mem := []
  disp := Vector.replicate Config.dispH (Vector.replicate Config.dispW false)
  key := Vector.replicate Config.nKeys false
  dirty := false
  halted := false
  err := ⟨.none, 0x0000, 0x0000⟩
  draws := 0

end Sys2Proof.Machine
end

