-- ==== Sys2Proof/Machine/Ops.lean ====
section
/-! DEFINITION. The named operations over memory, registers, call stack, display, keys and program counter (rules R10, R24, R29, R30, R52 to R54, R101), and the two ways an error is recorded (rules R205, R206). -/

namespace Sys2Proof.Machine

/-- `add16(a, b)`: the 16-bit adder of every address and `PC` computation (rules R10, R54; log 4). -/
def add16 (a b : Word) : Word := a + b

/-! ### Memory -/

/-- What an index reads as when no cell lists it: its content after a Reset with the empty ROM, the font from
`FONT_BASE` and `MEM_FILL` elsewhere (rules R38, R51, R60; the spec's decision D4, log 2). -/
def Memory.unlisted (k : Nat) : Byte :=
  if k < Config.fontBase then Config.memFill else Config.font.getD (k - Config.fontBase) Config.memFill

/-- `MEM[k]`. -/
def Memory.read : Memory → Nat → Byte
  | [], k => Memory.unlisted k
  | (a, b) :: m, k => if a = k then b else Memory.read m k

/-- `MEM[k] <- v`. A cell that would hold what an unlisted index reads as is left out, so that equal memories are equal
lists. -/
def Memory.write : Memory → Nat → Byte → Memory
  | [], k, v => if v = Memory.unlisted k then [] else [(k, v)]
  | (a, b) :: m, k, v =>
    if k < a then
      if v = Memory.unlisted k then (a, b) :: m else (k, v) :: (a, b) :: m
    else if k = a then
      if v = Memory.unlisted k then m else (k, v) :: m
    else (a, b) :: Memory.write m k v

/-- The canonical form above a bound: indices at least `lo`, strictly rising, below `MEM_SIZE`, and no cell that holds
what its index reads as unlisted. -/
def Memory.wfFrom : Nat → Memory → Bool
  | _, [] => true
  | lo, (a, b) :: m => decide (lo ≤ a) && decide (a < Config.memSize) && (b != Memory.unlisted a) && Memory.wfFrom (a + 1) m

/-- The canonical form of a memory. -/
def Memory.wf (m : Memory) : Bool := Memory.wfFrom 0 m

/-- The index an address names: `addr mod MEM_SIZE` (rule R52; `MEM_SIZE` is log 1). -/
def memIndex (addr : Word) : Nat := addr.toNat % Config.memSize

/-- `MemRead(addr, 1)` (rule R52). -/
def State.memRead (s : State) (addr : Word) : Byte := Memory.read s.mem (memIndex addr)

/-- `MemWrite(addr, 1, v)` (rule R53). -/
def State.memWrite (s : State) (addr : Word) (v : Byte) : State :=
  { s with mem := Memory.write s.mem (memIndex addr) v }

/-- `MemWrite` of a list of bytes, the first at `addr`, each next one at `add16` of one more (rules R54, R56). -/
def State.memWriteList (s : State) (addr : Word) : List Byte → State
  | [] => s
  | b :: bs => State.memWriteList (s.memWrite addr b) (add16 addr 1) bs

/-! ### Registers -/

/-- `V[r]` (rule R20). -/
def State.reg (s : State) (r : Reg) : Byte := s.v[r]

/-- `V[r] <- b` (rule R20). -/
def State.setReg (s : State) (r : Reg) (b : Byte) : State := { s with v := s.v.set r b }

/-- `I <- a` (rule R23). -/
def State.setI (s : State) (a : Word) : State := { s with i := a }

/-- `PC <- a` (rule R25). -/
def State.setPc (s : State) (a : Word) : State := { s with pc := a }

/-- `DT <- b` (rule R27). -/
def State.setDt (s : State) (b : Byte) : State := { s with dt := b }

/-- `ST <- b` (rule R27). -/
def State.setSt (s : State) (b : Byte) : State := { s with st := b }

/-- Skip the next instruction when the condition holds: `PC <- add16(PC, 2)` (rule R101). -/
def State.skipIf (s : State) (c : Bool) : State := if c then s.setPc (add16 s.pc 2) else s

/-! ### The call stack -/

/-- Push a return address; `none` when `STACK_DEPTH` values are already saved (rules R24, R104). -/
def State.push? (s : State) (ret : Word) : Option State :=
  if h : s.sp.val < Config.stackDepth then
    some { s with stack := s.stack.set s.sp.val ret h, sp := ⟨s.sp.val + 1, Nat.succ_lt_succ h⟩ }
  else none

/-- Pop the most recent return address; `none` when the stack is empty. The slot keeps its content (rules R24, R102). -/
def State.pop? (s : State) : Option (Word × State) :=
  if h : 0 < s.sp.val then
    have hk : s.sp.val - 1 < Config.stackDepth := by have := s.sp.isLt; omega
    some (s.stack[s.sp.val - 1], { s with sp := ⟨s.sp.val - 1, Nat.lt_succ_of_lt hk⟩ })
  else none

/-! ### The display and the input latch -/

/-- `DISP[row][col]` (rule R29). -/
def Grid.get (d : Grid) (row : Fin Config.dispH) (col : Fin Config.dispW) : Bool := d[row][col]

/-- `DISP[row][col] <- DISP[row][col] XOR 1` (rule R161). -/
def Grid.flip (d : Grid) (row : Fin Config.dispH) (col : Fin Config.dispW) : Grid :=
  d.set row (d[row].set col (!d[row][col]))

/-- The grid with every pixel off (rule R160). -/
def Grid.clear : Grid := Vector.replicate Config.dispH (Vector.replicate Config.dispW false)

/-- `DISP[row][col]` of a state. -/
def State.pixel (s : State) (row : Fin Config.dispH) (col : Fin Config.dispW) : Bool := Grid.get s.disp row col

/-- A new picture: `DISP` written and `DIRTY <- 1` (rules R31, R160, R161; the spec's decision D11, log 14). -/
def State.setDisp (s : State) (d : Grid) : State := { s with disp := d, dirty := true }

/-- `KEY[k]` (rule R30). -/
def State.keyHeld (s : State) (k : Fin Config.nKeys) : Bool := s.key[k]

/-! ### Errors -/

/-- The code of a cause, the 3-bit value of `ERR.cause` (rule R200; log 23). -/
def ErrCause.code : ErrCause → BitVec 3
  | .none => 0
  | .unknownSubOpcode => 1
  | .unknownFamily => 2
  | .stackUnderflow => 3
  | .stackOverflow => 4

/-- `report E(w, a)`: `ERR` is written and the core runs on (rule R205; log 9). -/
def State.report (s : State) (c : ErrCause) (w a : Word) : State := { s with err := ⟨c, w, a⟩ }

/-- `raise E(w, a)`, the error entry of rule R206: `ERR` is written and `HALTED` set; nothing else changes. It is the only
way the core takes an error that stops it: no status is saved, no handler entered, and nothing returns from it but
Reset (rule R209; log 8). -/
def State.raise (s : State) (c : ErrCause) (w a : Word) : State := { s.report c w a with halted := true }

/-- The address the running instruction was fetched from: the fetch left `PC = add16(a, 2)` (rule R100; log 20). -/
def State.fetchedFrom (s : State) : Word := add16 s.pc 0xFFFE

end Sys2Proof.Machine
end

