-- ==== Sys2Proof/Machine/Flags.lean ====
section
/-! DEFINITION. The flag computations of rule R22 and the write of VF. -/

namespace Sys2Proof.Machine

/-- A flag as the byte VF takes: exactly 0x00 or 0x01 (rule R22). -/
def flagByte (f : Bool) : Byte := if f then 0x01 else 0x00

/-- The carry of 8xy4: the unwrapped sum exceeds 255 (rule R126). -/
def carryOf (a b : Byte) : Bool := decide (a.toNat + b.toNat > 255)

/-- The not-borrow of 8xy5: 0 if `a < b` before the subtraction, else 1 (rule R127). -/
def notBorrowOf (a b : Byte) : Bool := !decide (a.toNat < b.toNat)

/-- The bit that 8xy6 shifts out: bit 0 of the operand before the shift (rule R128). -/
def shiftedOutOf (a : Byte) : Bool := a.getLsbD 0

/-- VF replaced by a flag, the whole byte (rule R22). -/
def State.setVF (s : State) (f : Bool) : State := s.setReg regF (flagByte f)

end Sys2Proof.Machine
end

