-- ==== Sys2Proof/Machine/Alu.lean ====
section
/-! DEFINITION. The meanings of the instructions that compute into a general register: 6xnn, 7xnn, 8xy0, 8xy2, 8xy3, 8xy4, 8xy5, 8xy6, Cxnn (41_alu.md). Operands are latched before any write and the later write wins (rule R11; log 11). -/

namespace Sys2Proof.Machine

/-- The 8-bit sum, reduced modulo 256 (rule R120). -/
def add8 (a b : Byte) : Byte := BitVec.ofNat 8 ((a.toNat + b.toNat) % 256)

/-- The 8-bit difference, reduced modulo 256 (rules R120, R127). -/
def sub8 (a b : Byte) : Byte := BitVec.ofNat 8 ((a.toNat + 256 - b.toNat) % 256)

/-- The logical shift right by one (rules R120, R128). -/
def shr8 (a : Byte) : Byte := BitVec.ofNat 8 (a.toNat / 2)

/-- 6xnn (rule R121). -/
def execLdImm (x : Reg) (nn : Byte) (s : State) : Result := .next (s.setReg x nn)

/-- 7xnn (rule R122). -/
def execAddImm (x : Reg) (nn : Byte) (s : State) : Result := .next (s.setReg x (add8 (s.reg x) nn))

/-- 8xy0 (rule R123). -/
def execLdReg (x y : Reg) (s : State) : Result := .next (s.setReg x (s.reg y))

/-- 8xy2 (rule R124). -/
def execAndReg (x y : Reg) (s : State) : Result := .next (s.setReg x (s.reg x &&& s.reg y))

/-- 8xy3 (rule R125). -/
def execXorReg (x y : Reg) (s : State) : Result := .next (s.setReg x (s.reg x ^^^ s.reg y))

/-- 8xy4: the sum is written first, then the carry (rule R126). -/
def execAddReg (x y : Reg) (s : State) : Result :=
  let a := s.reg x
  let b := s.reg y
  .next ((s.setReg x (add8 a b)).setVF (carryOf a b))

/-- 8xy5: the difference is written first, then the not-borrow (rule R127). -/
def execSubReg (x y : Reg) (s : State) : Result :=
  let a := s.reg x
  let b := s.reg y
  .next ((s.setReg x (sub8 a b)).setVF (notBorrowOf a b))

/-- 8xy6: the bit shifted out is written first, then the shifted value, so that with `x = 0xF` the value wins
(rule R128; the spec's decision D9, log 11). `y` is not used. -/
def execShr (x : Reg) (_y : Nibble) (s : State) : Result :=
  let a := s.reg x
  .next ((s.setVF (shiftedOutOf a)).setReg x (shr8 a))

/-- Cxnn on a given draw `r` of the random input (rule R129). -/
def rndWith (r : Byte) (x : Reg) (nn : Byte) (s : State) : State :=
  { s.setReg x (r &&& nn) with draws := s.draws + 1 }

/-- Cxnn on the next draw of the random input, a free value (rule R129; the spec's decision D15, log 12). -/
def execRnd (x : Reg) (nn : Byte) (s : State) : Result := .next (rndWith (Config.rnd s.draws) x nn s)

end Sys2Proof.Machine
end

