-- ==== Sys2Proof/Syntax.lean ====
section
/-! DEFINITION. The instructions: one constructor for each of the 29 rows of spec/opcode_table.json (rule R74, 30_encoding.md). -/

namespace Sys2Proof

/-- An instruction, with the fields of its word that rule R71 names. The operand types carry the fields' ranges, so that
every term is the instruction of some word. `shr` keeps the nibble `y` and `sneReg` the nibble `n` that rule R80 leaves
undecoded: no bit of a word is lost (log 24). -/
inductive Instr where
  /-- 00E0, `CLS` (R160). -/
  | cls
  /-- 00EE, `RET` (R102). -/
  | ret
  /-- 1nnn, `JP nnn` (R103). -/
  | jp (nnn : Addr12)
  /-- 2nnn, `CALL nnn` (R104). -/
  | call (nnn : Addr12)
  /-- 3xnn, `SE Vx, nn` (R105). -/
  | seImm (x : Reg) (nn : Byte)
  /-- 4xnn, `SNE Vx, nn` (R106). -/
  | sneImm (x : Reg) (nn : Byte)
  /-- 6xnn, `LD Vx, nn` (R121). -/
  | ldImm (x : Reg) (nn : Byte)
  /-- 7xnn, `ADD Vx, nn` (R122). -/
  | addImm (x : Reg) (nn : Byte)
  /-- 8xy0, `LD Vx, Vy` (R123). -/
  | ldReg (x y : Reg)
  /-- 8xy2, `AND Vx, Vy` (R124). -/
  | andReg (x y : Reg)
  /-- 8xy3, `XOR Vx, Vy` (R125). -/
  | xorReg (x y : Reg)
  /-- 8xy4, `ADD Vx, Vy` (R126). -/
  | addReg (x y : Reg)
  /-- 8xy5, `SUB Vx, Vy` (R127). -/
  | subReg (x y : Reg)
  /-- 8xy6, `SHR Vx` (R128); `y` is present in the word and not used. -/
  | shr (x : Reg) (y : Nibble)
  /-- 9xyN, `SNE Vx, Vy` (R107); `n` is present in the word and not decoded. -/
  | sneReg (x y : Reg) (n : Nibble)
  /-- Annn, `LD I, nnn` (R140). -/
  | ldI (nnn : Addr12)
  /-- Cxnn, `RND Vx, nn` (R129). -/
  | rnd (x : Reg) (nn : Byte)
  /-- Dxyn, `DRW Vx, Vy, n` (R161). -/
  | drw (x y : Reg) (n : Nibble)
  /-- Ex9E, `SKP Vx` (R180). -/
  | skp (x : Reg)
  /-- ExA1, `SKNP Vx` (R181). -/
  | sknp (x : Reg)
  /-- Fx07, `LD Vx, DT` (R183). -/
  | ldVxDt (x : Reg)
  /-- Fx0A, `LD Vx, K` (R182). -/
  | ldVxK (x : Reg)
  /-- Fx15, `LD DT, Vx` (R184). -/
  | ldDtVx (x : Reg)
  /-- Fx18, `LD ST, Vx` (R185). -/
  | ldStVx (x : Reg)
  /-- Fx1E, `ADD I, Vx` (R141). -/
  | addI (x : Reg)
  /-- Fx29, `LD F, Vx` (R142). -/
  | ldF (x : Reg)
  /-- Fx33, `LD B, Vx` (R143). -/
  | ldB (x : Reg)
  /-- Fx55, `LD [I], Vx` (R144). -/
  | storeRegs (x : Reg)
  /-- Fx65, `LD Vx, [I]` (R145). -/
  | loadRegs (x : Reg)
  deriving DecidableEq, Repr

end Sys2Proof
end

