-- ==== Sys2Proof/Decode.lean ====
section
/-! DEFINITION. The decoder of rules R71, R75 to R80 (30_encoding.md), total over all 16-bit words, and after it the encoder, written from the formats of rule R72 and the patterns of rule R74. -/

namespace Sys2Proof

/-- The family `op` = `w[15:12]` (rule R71). -/
def opField (w : Word) : Nibble := w.extractLsb' 12 4

/-- The nibble `w[11:8]` (rule R71). -/
def xBits (w : Word) : Nibble := w.extractLsb' 8 4

/-- The nibble `w[7:4]` (rule R71). -/
def yBits (w : Word) : Nibble := w.extractLsb' 4 4

/-- `n` = `w[3:0]` (rule R71). -/
def nField (w : Word) : Nibble := w.extractLsb' 0 4

/-- `nn` = `w[7:0]` (rule R71). -/
def nnField (w : Word) : Byte := w.extractLsb' 0 8

/-- `nnn` = `w[11:0]` (rule R71). -/
def nnnField (w : Word) : Addr12 := w.extractLsb' 0 12

/-- The register index in `w[11:8]` (rules R9, R71). -/
def xField (w : Word) : Reg := (xBits w).toFin

/-- The register index in `w[7:4]` (rules R9, R71). -/
def yField (w : Word) : Reg := (yBits w).toFin

/-- What the decoder of rule R75 answers: an instruction, or one of the two kinds of word that are none. -/
inductive Decoded where
  /-- A word of the table of rule R74. -/
  | instr (i : Instr)
  /-- A word of families 0, 8, E, F that matches no row (rules R77, R78, R79). -/
  | unknownSubOpcode
  /-- A word of family 5 or B (rule R76). -/
  | unknownFamily
  deriving DecidableEq, Repr

/-- Family 0 matches the whole word (rules R75, R77; the spec's decision D8, log 10). -/
def decodeFamily0 (w : Word) : Decoded :=
  if w = 0x00E0 then .instr .cls
  else if w = 0x00EE then .instr .ret
  else .unknownSubOpcode

/-- Family 8 dispatches on the low nibble (rules R75, R78); `y` of 8xy6 is not used (rule R80). -/
def decodeFamily8 (w : Word) : Decoded :=
  match (nField w).toNat with
  | 0x0 => .instr (.ldReg (xField w) (yField w))
  | 0x2 => .instr (.andReg (xField w) (yField w))
  | 0x3 => .instr (.xorReg (xField w) (yField w))
  | 0x4 => .instr (.addReg (xField w) (yField w))
  | 0x5 => .instr (.subReg (xField w) (yField w))
  | 0x6 => .instr (.shr (xField w) (yBits w))
  | _ => .unknownSubOpcode

/-- Family E dispatches on the low byte (rules R75, R79). -/
def decodeFamilyE (w : Word) : Decoded :=
  match (nnField w).toNat with
  | 0x9E => .instr (.skp (xField w))
  | 0xA1 => .instr (.sknp (xField w))
  | _ => .unknownSubOpcode

/-- Family F dispatches on the low byte (rules R75, R79). -/
def decodeFamilyF (w : Word) : Decoded :=
  match (nnField w).toNat with
  | 0x07 => .instr (.ldVxDt (xField w))
  | 0x0A => .instr (.ldVxK (xField w))
  | 0x15 => .instr (.ldDtVx (xField w))
  | 0x18 => .instr (.ldStVx (xField w))
  | 0x1E => .instr (.addI (xField w))
  | 0x29 => .instr (.ldF (xField w))
  | 0x33 => .instr (.ldB (xField w))
  | 0x55 => .instr (.storeRegs (xField w))
  | 0x65 => .instr (.loadRegs (xField w))
  | _ => .unknownSubOpcode

/-- `decode(w)` of rule R75. Families 5 and B have no handler (rule R76); family 9 has no secondary dispatch
(rule R80, 90_conflicts.md C11). The last arm is family F, the only value of a nibble that is left. -/
def decode (w : Word) : Decoded :=
  match (opField w).toNat with
  | 0x0 => decodeFamily0 w
  | 0x1 => .instr (.jp (nnnField w))
  | 0x2 => .instr (.call (nnnField w))
  | 0x3 => .instr (.seImm (xField w) (nnField w))
  | 0x4 => .instr (.sneImm (xField w) (nnField w))
  | 0x5 => .unknownFamily
  | 0x6 => .instr (.ldImm (xField w) (nnField w))
  | 0x7 => .instr (.addImm (xField w) (nnField w))
  | 0x8 => decodeFamily8 w
  | 0x9 => .instr (.sneReg (xField w) (yField w) (nField w))
  | 0xA => .instr (.ldI (nnnField w))
  | 0xB => .unknownFamily
  | 0xC => .instr (.rnd (xField w) (nnField w))
  | 0xD => .instr (.drw (xField w) (yField w) (nField w))
  | 0xE => decodeFamilyE w
  | _ => decodeFamilyF w

/-- The word of two bytes in memory, the byte at the lower address first: `hi : lo`, big-endian (rules R55, R70; the
spec's decision D2, log 3). -/
def wordOfBytes (hi lo : Byte) : Word := hi ++ lo

/-- The byte of a word that lies at the lower address (rule R55). -/
def highByte (w : Word) : Byte := w.extractLsb' 8 8

/-- The byte of a word that lies at the higher address (rule R55). -/
def lowByte (w : Word) : Byte := w.extractLsb' 0 8

/-- The decoder on the two bytes of an instruction as memory holds them. -/
def decodeBytes (hi lo : Byte) : Decoded := decode (wordOfBytes hi lo)

/-- A register index as a nibble of a word. -/
def regBits (r : Reg) : Nibble := BitVec.ofFin r

/-- Format A of rule R72: `op`, `nnn`. -/
def formatA (op : Nibble) (nnn : Addr12) : Word := op ++ nnn

/-- Format XB of rule R72: `op`, `x`, `nn`. -/
def formatXB (op : Nibble) (x : Reg) (nn : Byte) : Word := op ++ (regBits x ++ nn)

/-- Formats XY and XYN of rule R72: `op`, `x`, `y`, a last nibble. -/
def formatXYN (op : Nibble) (x : Reg) (y n : Nibble) : Word := op ++ (regBits x ++ (y ++ n))

/-- The word of an instruction (rules R72, R74); format XS is format XB with the sub-opcode as its low byte. -/
def encode : Instr → Word
  | .cls => 0x00E0
  | .ret => 0x00EE
  | .jp nnn => formatA 0x1 nnn
  | .call nnn => formatA 0x2 nnn
  | .seImm x nn => formatXB 0x3 x nn
  | .sneImm x nn => formatXB 0x4 x nn
  | .ldImm x nn => formatXB 0x6 x nn
  | .addImm x nn => formatXB 0x7 x nn
  | .ldReg x y => formatXYN 0x8 x (regBits y) 0x0
  | .andReg x y => formatXYN 0x8 x (regBits y) 0x2
  | .xorReg x y => formatXYN 0x8 x (regBits y) 0x3
  | .addReg x y => formatXYN 0x8 x (regBits y) 0x4
  | .subReg x y => formatXYN 0x8 x (regBits y) 0x5
  | .shr x y => formatXYN 0x8 x y 0x6
  | .sneReg x y n => formatXYN 0x9 x (regBits y) n
  | .ldI nnn => formatA 0xA nnn
  | .rnd x nn => formatXB 0xC x nn
  | .drw x y n => formatXYN 0xD x (regBits y) n
  | .skp x => formatXB 0xE x 0x9E
  | .sknp x => formatXB 0xE x 0xA1
  | .ldVxDt x => formatXB 0xF x 0x07
  | .ldVxK x => formatXB 0xF x 0x0A
  | .ldDtVx x => formatXB 0xF x 0x15
  | .ldStVx x => formatXB 0xF x 0x18
  | .addI x => formatXB 0xF x 0x1E
  | .ldF x => formatXB 0xF x 0x29
  | .ldB x => formatXB 0xF x 0x33
  | .storeRegs x => formatXB 0xF x 0x55
  | .loadRegs x => formatXB 0xF x 0x65

/-- The instruction word of the lowest `nbits` bits of `w`, numbered as spec/opcode_table.json numbers them (bit 0 the
least significant bit of the word), the bits above them zero. -/
def tableWord (nbits w : Nat) : Word := BitVec.ofNat 16 (w % 2 ^ nbits)

/-- The instruction the decoder reads from the bytes of a table row's word, as the hardware stores them: high byte at
the lower address (rule R70). -/
def decodeTableWord (nbits w : Nat) : Option Instr :=
  match decodeBytes (highByte (tableWord nbits w)) (lowByte (tableWord nbits w)) with
  | .instr i => some i
  | .unknownSubOpcode => none
  | .unknownFamily => none

end Sys2Proof
end

