-- ==== Sys2Proof/Machine/Operands.lean ====
section
/-! DEFINITION. The operand forms of rules R73 and R146: the immediate address, the memory operand at `I`, the register list of Fx55 and Fx65, the decimal digits of Fx33, the glyph address of Fx29 and the key index of rule R186. -/

namespace Sys2Proof.Machine

/-- `zext_16(nnn)` (rule R73). -/
def immAddr (nnn : Addr12) : Word := nnn.setWidth 16

/-- The address of the `k`-th byte of the memory operand: `add16(I, k)` (rule R146). -/
def State.effAddr (s : State) (k : Nat) : Word := add16 s.i (BitVec.ofNat 16 k)

/-- The `n` bytes of the memory operand at `I`, in order of their addresses (rules R56, R146). -/
def State.operandBytes (s : State) (n : Nat) : List Byte := (List.range n).map fun k => s.memRead (s.effAddr k)

/-- The registers `V[0]` to `V[x]`, in order (rule R144). -/
def State.regList (s : State) (x : Reg) : List Byte := s.v.toList.take (x.val + 1)

/-- Write a list of bytes into the registers from `V[k]` on (rule R145). -/
def State.setRegList (s : State) (k : Nat) : List Byte → State
  | [] => s
  | b :: bs => State.setRegList (if h : k < 16 then s.setReg ⟨k, h⟩ b else s) (k + 1) bs

/-- The hundreds, tens and ones digit of a byte (rule R143). -/
def bcdDigits (a : Byte) : List Byte :=
  [BitVec.ofNat 8 (a.toNat / 100), BitVec.ofNat 8 (a.toNat / 10 % 10), BitVec.ofNat 8 (a.toNat % 10)]

/-- The address of the glyph of a byte, the whole byte unmasked (rule R142; the spec's decision D14, log 17). -/
def glyphAddr (a : Byte) : Word := BitVec.ofNat 16 (Config.fontBase + Config.glyphBytes * a.toNat)

/-- The key that a byte names: its value modulo 16 (rule R186; the spec's decision D12, log 15). -/
def keyIndex (a : Byte) : Fin Config.nKeys := ⟨a.toNat % Config.nKeys, Nat.mod_lt _ (by decide)⟩

/-- The least key that is held (rule R182; the spec's decision D13, log 16). -/
def State.leastKey? (s : State) : Option (Fin Config.nKeys) := (List.finRange Config.nKeys).find? fun k => s.keyHeld k

end Sys2Proof.Machine
end

