-- ==== Sys2Proof/Machine/Control.lean ====
section
/-! DEFINITION. The meanings of the control-transfer instructions 00EE, 1nnn, 2nnn, 3xnn, 4xnn, 9xy0 (40_control.md). Each runs on the state the fetch left, with `PC` already advanced (rule R100). -/

namespace Sys2Proof.Machine

/-- 00EE (rule R102). -/
def execRet (s : State) : Result :=
  match s.pop? with
  | none => .next (s.raise .stackUnderflow (encode .ret) s.fetchedFrom)
  | some (target, t) => .next (t.setPc target)

/-- 1nnn (rule R103). -/
def execJp (nnn : Addr12) (s : State) : Result := .next (s.setPc (immAddr nnn))

/-- 2nnn (rule R104; the depth and the overflow are the spec's decision D5, log 5). -/
def execCall (nnn : Addr12) (s : State) : Result :=
  match s.push? s.pc with
  | none => .next (s.raise .stackOverflow (encode (.call nnn)) s.fetchedFrom)
  | some t => .next (t.setPc (immAddr nnn))

/-- 3xnn (rule R105). -/
def execSeImm (x : Reg) (nn : Byte) (s : State) : Result := .next (s.skipIf (s.reg x == nn))

/-- 4xnn (rule R106). -/
def execSneImm (x : Reg) (nn : Byte) (s : State) : Result := .next (s.skipIf (s.reg x != nn))

/-- 9xyN, whatever `N` is (rules R80, R107; log 10). -/
def execSneReg (x y : Reg) (_n : Nibble) (s : State) : Result := .next (s.skipIf (s.reg x != s.reg y))

end Sys2Proof.Machine
end

