-- ==== Sys2Proof/Machine/Display.lean ====
section
/-! DEFINITION. The sprite blitter and the meanings of 00E0 and Dxyn (43_display.md). -/

namespace Sys2Proof.Machine

/-- The row of a vertical position: `mod 32` (rule R162; the spec's decision D10, log 13). -/
def rowOf (k : Nat) : Fin Config.dispH := ⟨k % Config.dispH, Nat.mod_lt _ (by decide)⟩

/-- The column of a horizontal position: `mod 64` (rule R162; the spec's decision D10, log 13). -/
def colOf (k : Nat) : Fin Config.dispW := ⟨k % Config.dispW, Nat.mod_lt _ (by decide)⟩

/-- Bit `7 - c` of a sprite byte: the pixel in column `c` of the sprite, bit 7 leftmost (rules R56, R161). -/
def spriteBit (b : Byte) (c : Nat) : Bool := b.getLsbD (7 - c)

/-- The inner loop body of rule R161 for column `c` of a sprite row `b` at `x0`: the display and `hit` so far go in, the
display and `hit` after this pixel come out. -/
def blitPixel (b : Byte) (x0 : Nat) (row : Fin Config.dispH) (a : Grid × Bool) (c : Nat) : Grid × Bool :=
  if spriteBit b c then (Grid.flip a.1 row (colOf (x0 + c)), a.2 || Grid.get a.1 row (colOf (x0 + c))) else a

/-- The inner loop of rule R161: `c` from 0 to 7. -/
def blitRow (b : Byte) (x0 : Nat) (row : Fin Config.dispH) (a : Grid × Bool) : Grid × Bool :=
  (List.range 8).foldl (blitPixel b x0 row) a

/-- The outer loop of rule R161, over the sprite's bytes, the first of them at vertical position `y`. -/
def blit (x0 : Nat) : Nat → List Byte → Grid × Bool → Grid × Bool
  | _, [], a => a
  | y, b :: bs, a => blit x0 (y + 1) bs (blitRow b x0 (rowOf y) a)

/-- 00E0: VF is not written (rule R160). -/
def execCls (s : State) : Result := .next (s.setDisp Grid.clear)

/-- Dxyn: coordinates, `I` and the sprite are read before any write, VF is written once, after all rows (rule R161). -/
def execDrw (x y : Reg) (n : Nibble) (s : State) : Result :=
  let out := blit (s.reg x).toNat (s.reg y).toNat (s.operandBytes n.toNat) (s.disp, false)
  .next ((s.setVF out.2).setDisp out.1)

end Sys2Proof.Machine
end

