-- ==== Sys2Proof/Machine/IndexMemory.lean ====
section
/-! DEFINITION. The meanings of the instructions that set `I` or move bytes between registers and memory: Annn, Fx1E, Fx29, Fx33, Fx55, Fx65 (42_index_memory.md). -/

namespace Sys2Proof.Machine

/-- Annn (rule R140). -/
def execLdI (nnn : Addr12) (s : State) : Result := .next (s.setI (immAddr nnn))

/-- Fx1E: `I` is neither masked nor reduced, and VF is not written (rule R141). -/
def execAddI (x : Reg) (s : State) : Result := .next (s.setI (add16 s.i ((s.reg x).setWidth 16)))

/-- Fx29 (rule R142). -/
def execLdF (x : Reg) (s : State) : Result := .next (s.setI (glyphAddr (s.reg x)))

/-- Fx33: hundreds at `I`, tens at `I + 1`, ones at `I + 2`; `I` is kept (rule R143). -/
def execLdB (x : Reg) (s : State) : Result := .next (s.memWriteList s.i (bcdDigits (s.reg x)))

/-- Fx55: `V[0]` to `V[x]` stored from `I` on, then `I` moved past them (rule R144; 90_conflicts.md C1). -/
def execStoreRegs (x : Reg) (s : State) : Result :=
  .next ((s.memWriteList s.i (s.regList x)).setI (s.effAddr (x.val + 1)))

/-- Fx65: `V[0]` to `V[x]` loaded from `I` on, then `I` moved past them (rule R145; 90_conflicts.md C1). -/
def execLoadRegs (x : Reg) (s : State) : Result :=
  .next ((s.setRegList 0 (s.operandBytes (x.val + 1))).setI (s.effAddr (x.val + 1)))

end Sys2Proof.Machine
end

