-- ==== Sys2Proof/Machine/InputTimers.lean ====
section
/-! DEFINITION. The meanings of the key and timer instructions Ex9E, ExA1, Fx0A, Fx07, Fx15, Fx18 (44_input_timers.md). -/

namespace Sys2Proof.Machine

/-- Ex9E (rules R180, R186). -/
def execSkp (x : Reg) (s : State) : Result := .next (s.skipIf (s.keyHeld (keyIndex (s.reg x))))

/-- ExA1 (rules R181, R186). -/
def execSknp (x : Reg) (s : State) : Result := .next (s.skipIf (!s.keyHeld (keyIndex (s.reg x))))

/-- Fx0A: with no key held `PC` goes back by 2 and nothing else changes, so that this instruction is fetched again; else
the least key held (rule R182; log 16). -/
def execLdVxK (x : Reg) (s : State) : Result :=
  match s.leastKey? with
  | none => .next (s.setPc (add16 s.pc 0xFFFE))
  | some k => .next (s.setReg x (BitVec.ofNat 8 k.val))

/-- Fx07 (rule R183). -/
def execLdVxDt (x : Reg) (s : State) : Result := .next (s.setReg x s.dt)

/-- Fx15 (rule R184). -/
def execLdDtVx (x : Reg) (s : State) : Result := .next (s.setDt (s.reg x))

/-- Fx18 (rule R185). -/
def execLdStVx (x : Reg) (s : State) : Result := .next (s.setSt (s.reg x))

end Sys2Proof.Machine
end

