-- ==== Sys2Proof/Machine/Fetch.lean ====
section
/-! DEFINITION. The fetch of rule R100 (40_control.md) and what a step does with a word that is no instruction (rules R201, R202, 60_exceptions.md). -/

namespace Sys2Proof.Machine

/-- The word at `PC`: two byte reads, the byte at the lower address the high one (rules R55, R57, R100; log 3). -/
def State.fetchWord (s : State) : Word := wordOfBytes (s.memRead s.pc) (s.memRead (add16 s.pc 1))

/-- What the decoder makes of the two bytes at `PC`. -/
def State.fetched (s : State) : Decoded := decodeBytes (s.memRead s.pc) (s.memRead (add16 s.pc 1))

/-- `PC <- add16(a, 2)`, before the handler runs (rule R100). -/
def State.advance (s : State) : State := s.setPc (add16 s.pc 2)

/-- The soft failure: the report of rule R205 and nothing else, on the state after the fetch (rule R201; log 9). -/
def State.softFailure (s : State) (w a : Word) : State := s.report .unknownSubOpcode w a

/-- The hard failure: the error entry of rule R206 on the state after the fetch (rule R202; log 8). -/
def State.hardFailure (s : State) (w a : Word) : State := s.raise .unknownFamily w a

/-- Store a word at `PC`, where the next fetch reads it (rule R55). -/
def State.storeAtPc (s : State) (w : Word) : State := s.memWriteList s.pc [highByte w, lowByte w]

end Sys2Proof.Machine
end

