-- ==== Sys2Proof/Machine/Step.lean ====
section
/-! DEFINITION. The Step operation of rule R100 (40_control.md), and how a word is placed where the next step fetches. -/

namespace Sys2Proof.Machine

/-- `Step()` of rule R100. While `HALTED` is 1 nothing changes (rule R207). -/
def step (s : State) : Host.Outcome State Fault Refusal :=
  if s.halted then .next s
  else
    match s.fetched with
    | .instr i => exec i s.advance
    | .unknownSubOpcode => .next (s.advance.softFailure s.fetchWord s.pc)
    | .unknownFamily => .next (s.advance.hardFailure s.fetchWord s.pc)

/-- `s` with the word of the lowest `nbits` bits of `w` stored where the next fetch reads, and `HALTED` cleared, so that
the next step fetches and runs it (log 19). -/
def State.withFetchWord (s : State) (nbits w : Nat) : State :=
  { s.storeAtPc (tableWord nbits w) with halted := false }

end Sys2Proof.Machine
end

