-- ==== Sys2Proof/Machine/HostOps.lean ====
section
/-! DEFINITION. The host's operations beside Step, and the three exports it reads (60_exceptions.md rules R210 to R218, 70_reset_and_hazards.md rules R240 to R243). -/

namespace Sys2Proof.Machine

/-- A timer one Tick later: down by 1, floored at 0 (rule R210). -/
def tickDown (b : Byte) : Byte := if b.toNat > 0 then b - 1 else b

/-- `Tick()` (rule R210). -/
def State.tick (s : State) : State := { s with dt := tickDown s.dt, st := tickDown s.st }

/-- `KeySet(k, v)` (rule R215). -/
def State.keySet (s : State) (k : Fin Config.nKeys) (v : Bool) : State := { s with key := s.key.set k v }

/-- `FrameAck()` (rule R217). -/
def State.frameAck (s : State) : State := { s with dirty := false }

/-- The ROM copied verbatim into memory from `PROG_BASE` on (rule R242). -/
def State.loadRom (s : State) (rom : List Byte) : State := s.memWriteList (BitVec.ofNat 16 Config.progBase) rom

/-- `Reset(rom)`: a new machine, or LoadError and no machine (rules R241, R243). The random input is outside the machine
(rule R129), so a Reset does not rewind it: the new machine draws on from where the input stands (log 12). -/
def hostReset (rom : List Byte) (draws : Nat) : Result :=
  if romWf rom then .next (({ State.reset with draws := draws } : State).loadRom rom) else .fault .loadError

/-- The sound export `sound_on`: `ST > 0` (rules R34, R212). -/
def State.soundOn (s : State) : Bool := decide (s.st.toNat > 0)

/-- The display export: the grid and the dirty bit (rule R216). -/
def State.displayExport (s : State) : Grid × Bool := (s.disp, s.dirty)

/-- The status export: `HALTED`, and the code, word and address of `ERR` (rule R218). -/
def State.statusExport (s : State) : Bool × BitVec 3 × Word × Word := (s.halted, s.err.cause.code, s.err.word, s.err.addr)

/-- One host operation, whole (rule R214). -/
inductive HostOp where
  | reset (rom : List Byte)
  | step
  | tick
  | keySet (k : Fin Config.nKeys) (v : Bool)
  | frameAck
  deriving DecidableEq, Repr

/-- The effect of one host operation. A Reset discards the machine it is applied to (rule R240);
only the position of the random input, which is no part of that machine, goes on (rule R129; log 12). -/
def act (op : HostOp) (s : State) : Result :=
  match op with
  | .reset rom => hostReset rom s.draws
  | .step => step s
  | .tick => .next s.tick
  | .keySet k v => .next (s.keySet k v)
  | .frameAck => .next s.frameAck

/-- Host operations one after another, in the order of the list, ended by the first that answers no next state. Every
interleaving of whole operations is some list (rule R214; log 21). -/
def runOps : List HostOp → State → Result
  | [], s => .next s
  | op :: ops, s =>
    match act op s with
    | .next t => runOps ops t
    | .fault r => .fault r
    | .refused r => .refused r

end Sys2Proof.Machine
end

