-- ==== Sys2Proof/Safety.lean ====
section
/-! DEFINITION. The terms in which claims are stated: the parts of the state and what a change leaves alone, the invariant every operation keeps, a safe run, and the pixels a sprite covers. -/

namespace Sys2Proof.Machine

/-- The pieces of state of rule R36, and the model's own counter `draws`. The parts `stack` and `err` are their whole
records: all slots and `SP`, all of `ERR`. -/
inductive Part where
  | v | i | pc | stack | dt | st | mem | disp | key | dirty | halted | err | draws
  deriving DecidableEq, Repr

/-- Two states agree on a part. Memory is compared by what every address reads as. -/
def Part.Same (p : Part) (s t : State) : Prop :=
  match p with
  | .v => ∀ r : Reg, t.reg r = s.reg r
  | .i => t.i = s.i
  | .pc => t.pc = s.pc
  | .stack => t.stack = s.stack ∧ t.sp = s.sp
  | .dt => t.dt = s.dt
  | .st => t.st = s.st
  | .mem => ∀ a : Word, t.memRead a = s.memRead a
  | .disp => ∀ row col, t.pixel row col = s.pixel row col
  | .key => ∀ k, t.keyHeld k = s.keyHeld k
  | .dirty => t.dirty = s.dirty
  | .halted => t.halted = s.halted
  | .err => t.err = s.err
  | .draws => t.draws = s.draws

/-- The frame: `s` and `t` agree on every part that is not listed. -/
def SameBut (changed : List Part) (s t : State) : Prop := ∀ p : Part, p ∉ changed → p.Same s t

/-- The parts of the state an instruction may write, beside the advance of `PC` that the fetch makes (rules R21, R27 to R33,
R36). `draws` is the model's own. -/
def partsWritten : Instr → List Part
  | .cls => [.disp, .dirty]
  | .ret => [.pc, .stack, .halted, .err]
  | .jp _ => [.pc]
  | .call _ => [.pc, .stack, .halted, .err]
  | .seImm _ _ => [.pc]
  | .sneImm _ _ => [.pc]
  | .ldImm _ _ => [.v]
  | .addImm _ _ => [.v]
  | .ldReg _ _ => [.v]
  | .andReg _ _ => [.v]
  | .xorReg _ _ => [.v]
  | .addReg _ _ => [.v]
  | .subReg _ _ => [.v]
  | .shr _ _ => [.v]
  | .sneReg _ _ _ => [.pc]
  | .ldI _ => [.i]
  | .rnd _ _ => [.v, .draws]
  | .drw _ _ _ => [.v, .disp, .dirty]
  | .skp _ => [.pc]
  | .sknp _ => [.pc]
  | .ldVxDt _ => [.v]
  | .ldVxK _ => [.v, .pc]
  | .ldDtVx _ => [.dt]
  | .ldStVx _ => [.st]
  | .addI _ => [.i]
  | .ldF _ => [.i]
  | .ldB _ => [.mem]
  | .storeRegs _ => [.mem, .i]
  | .loadRegs _ => [.v, .i]

/-- The general registers an instruction may write: `V[x]` where rule R21 lists it as a writer of `V[x]`, `V[0]` to `V[x]`
for Fx65, and VF for the four flag writers of rule R22. -/
def mayWriteReg : Instr → Reg → Prop
  | .cls, _ => False
  | .ret, _ => False
  | .jp _, _ => False
  | .call _, _ => False
  | .seImm _ _, _ => False
  | .sneImm _ _, _ => False
  | .ldImm x _, r => r = x
  | .addImm x _, r => r = x
  | .ldReg x _, r => r = x
  | .andReg x _, r => r = x
  | .xorReg x _, r => r = x
  | .addReg x _, r => r = x ∨ r = regF
  | .subReg x _, r => r = x ∨ r = regF
  | .shr x _, r => r = x ∨ r = regF
  | .sneReg _ _ _, _ => False
  | .ldI _, _ => False
  | .rnd x _, r => r = x
  | .drw _ _ _, r => r = regF
  | .skp _, _ => False
  | .sknp _, _ => False
  | .ldVxDt x, r => r = x
  | .ldVxK x, r => r = x
  | .ldDtVx _, _ => False
  | .ldStVx _, _ => False
  | .addI _, _ => False
  | .ldF _, _ => False
  | .ldB _, _ => False
  | .storeRegs _, _ => False
  | .loadRegs x, r => r ≤ x

/-- The causes that halt the core (rule R200). -/
def ErrCause.halts : ErrCause → Bool
  | .none => false
  | .unknownSubOpcode => false
  | .unknownFamily => true
  | .stackUnderflow => true
  | .stackOverflow => true

/-- The invariant of the machine: memory is in its canonical form, and the halt latch and the error record tell the truth
about the last error (rules R32, R33, R200 to R206). -/
structure Inv (s : State) : Prop where
  /-- Memory is in canonical form and inside the array. -/
  memory : Memory.wf s.mem = true
  /-- The core is halted exactly when the recorded error is a halting one. -/
  latch : s.halted = s.err.cause.halts
  /-- Without an error the record is all zero. -/
  noError : s.err.cause = .none → s.err.word = 0 ∧ s.err.addr = 0
  /-- A recorded soft failure names a word that is no instruction of a known family. -/
  subOpcode : s.err.cause = .unknownSubOpcode → decode s.err.word = .unknownSubOpcode
  /-- A recorded hard failure names a word of an unknown family. -/
  family : s.err.cause = .unknownFamily → decode s.err.word = .unknownFamily
  /-- A recorded underflow names 00EE, and the stack is empty. -/
  underflow : s.err.cause = .stackUnderflow → decode s.err.word = .instr .ret ∧ s.sp.val = 0
  /-- A recorded overflow names a 2nnn, and the stack is full. -/
  overflow : s.err.cause = .stackOverflow → (∃ nnn, decode s.err.word = .instr (.call nnn)) ∧ s.sp.val = Config.stackDepth
  /-- The halt is precise: `PC` is where the fetch of the failing instruction left it. -/
  precise : s.halted = true → s.pc = s.err.addr + 2

/-- A run of host operations is safe when it ends in a state and that state is not halted. -/
def SafeRun (ops : List HostOp) (s : State) : Prop := ∃ t, runOps ops s = .next t ∧ t.halted = false

/-- The operation is not a Reset. -/
def HostOp.keepsMachine : HostOp → Bool
  | .reset _ => false
  | .step => true
  | .tick => true
  | .keySet _ _ => true
  | .frameAck => true

/-- The program has reached a self-jump, the word `1nnn` at address `nnn` (rule R246). -/
def State.atSelfJump (s : State) : Prop := ∃ nnn, s.fetched = .instr (.jp nnn) ∧ s.pc = nnn.setWidth 16

/-- The sprite of height `n` at `I`, drawn with its left edge at `x0` and its top edge at `y0`, has a 1 bit that lands on
this pixel: bit `7 - c` of the byte at `I + r` lands on row `(y0 + r) mod 32`, column `(x0 + c) mod 64` (rules R161, R162). -/
def State.spriteLands (s : State) (x0 y0 n : Nat) (row : Fin Config.dispH) (col : Fin Config.dispW) : Prop :=
  ∃ r c : Nat, r < n ∧ c < 8 ∧ (s.memRead (s.i + BitVec.ofNat 16 r)).getLsbD (7 - c) = true ∧
    row.val = (y0 + r) % 32 ∧ col.val = (x0 + c) % 64

end Sys2Proof.Machine
end

