-- ==== Sys2Proof/Certificates/Slice0/Obligations.lean ====
section
/-! DEFINITION. The statements for the provers. Each docstring names the rule, or the section of spec/, that it formalises and, where a clause rests on a decision the spec marks as its own, that decision and the log entry that carries it. -/

open Sys2Proof Sys2Proof.Machine

/-! ### Encoding -/

/-- Words written out from the patterns of 30_encoding.md section 3, one for each instruction, decode to the
instruction they stand for. -/
def Obligations.WordsDecodeToTheirInstructions : Prop :=
  decode 0x00E0 = .instr .cls ∧ decode 0x00EE = .instr .ret ∧
  decode 0x1234 = .instr (.jp 0x234) ∧ decode 0x2ABC = .instr (.call 0xABC) ∧
  decode 0x3A05 = .instr (.seImm 10 0x05) ∧ decode 0x41F0 = .instr (.sneImm 1 0xF0) ∧
  decode 0x6A2F = .instr (.ldImm 10 0x2F) ∧ decode 0x7301 = .instr (.addImm 3 0x01) ∧
  decode 0x8120 = .instr (.ldReg 1 2) ∧ decode 0x8122 = .instr (.andReg 1 2) ∧
  decode 0x8123 = .instr (.xorReg 1 2) ∧ decode 0x8124 = .instr (.addReg 1 2) ∧
  decode 0x8125 = .instr (.subReg 1 2) ∧ decode 0x8306 = .instr (.shr 3 0) ∧
  decode 0x9120 = .instr (.sneReg 1 2 0) ∧ decode 0xA30C = .instr (.ldI 0x30C) ∧
  decode 0xC20F = .instr (.rnd 2 0x0F) ∧ decode 0xD125 = .instr (.drw 1 2 5) ∧
  decode 0xE39E = .instr (.skp 3) ∧ decode 0xE3A1 = .instr (.sknp 3) ∧
  decode 0xF107 = .instr (.ldVxDt 1) ∧ decode 0xF50A = .instr (.ldVxK 5) ∧
  decode 0xF615 = .instr (.ldDtVx 6) ∧ decode 0xF218 = .instr (.ldStVx 2) ∧
  decode 0xF21E = .instr (.addI 2) ∧ decode 0xFA29 = .instr (.ldF 10) ∧
  decode 0xF733 = .instr (.ldB 7) ∧ decode 0xF255 = .instr (.storeRegs 2) ∧
  decode 0xF265 = .instr (.loadRegs 2)

/-- Decode and encode agree on every instruction (30_encoding.md sections 1 and 3). How much of a word the secondary
dispatch matches is the spec's own decision D8 (log 10); that the undecoded nibbles are kept as operands is the
model's choice (log 24). -/
def Obligations.DecodingAnEncodedInstructionGivesItBack : Prop :=
  ∀ i : Instr, decode (encode i) = .instr i

/-- Each instruction word has one meaning, from which the word is built again (30_encoding.md sections 1 and 3; the
spec's own decision D8, log 10; the kept nibbles are log 24). -/
def Obligations.EncodingADecodedWordGivesItBack : Prop :=
  ∀ (w : Word) (i : Instr), decode w = .instr i → encode i = w

/-- The dispatch algorithm of 30_encoding.md section 3 and its mask and match table say the same, and no two rows
match the same word. The exact masks of families 0, 9 and E are the spec's own decision D8 (log 10). -/
def Obligations.DecoderAgreesWithTheOpcodeTable : Prop :=
  (∀ (w : Word) (r : Row), r ∈ opcodeTable → (w &&& r.mask = r.pattern ↔ ∃ i, decode w = .instr i ∧ i.row = r)) ∧
  (∀ (w : Word) (r q : Row), r ∈ opcodeTable → q ∈ opcodeTable → w &&& r.mask = r.pattern → w &&& q.mask = q.pattern →
    r = q)

/-- The words that are no instruction (30_encoding.md section 4). The exact match of families 0 and E is the spec's
own decision D8 (log 10). -/
def Obligations.UnknownWordsFallInTheirClasses : Prop :=
  ∀ w : Word,
    (decode w = .unknownFamily ↔ w.toNat / 4096 = 0x5 ∨ w.toNat / 4096 = 0xB) ∧
    (decode w = .unknownSubOpcode ↔
      (w.toNat / 4096 = 0x0 ∧ w ≠ 0x00E0 ∧ w ≠ 0x00EE) ∨
      (w.toNat / 4096 = 0x8 ∧ w.toNat % 16 ∉ [0x0, 0x2, 0x3, 0x4, 0x5, 0x6]) ∨
      (w.toNat / 4096 = 0xE ∧ w.toNat % 256 ∉ [0x9E, 0xA1]) ∨
      (w.toNat / 4096 = 0xF ∧ w.toNat % 256 ∉ [0x07, 0x0A, 0x15, 0x18, 0x1E, 0x29, 0x33, 0x55, 0x65]))

/-! ### The step and the errors -/

/-- Step of 40_control.md section 1 on an instruction word. The byte order is the spec's own decision D2 (log 3), the
halt latch its decision D6 (log 8). -/
def Obligations.StepRunsTheDecodedInstruction : Prop :=
  ∀ (s : State) (i : Instr), s.halted = false → decode (s.memRead s.pc ++ s.memRead (s.pc + 1)) = .instr i →
    step s = exec i { s with pc := s.pc + 2 }

/-- The soft failure (60_exceptions.md sections 2 and 3). The record is the spec's own decision D7 (log 9), its code
D6 (log 8), the byte order D2 (log 3). -/
def Obligations.UnknownSubOpcodeIsReportedAndSkipped : Prop :=
  ∀ s : State, s.halted = false → decode (s.memRead s.pc ++ s.memRead (s.pc + 1)) = .unknownSubOpcode →
    ∃ t, step s = .next t ∧ t.statusExport = (false, 1, s.memRead s.pc ++ s.memRead (s.pc + 1), s.pc) ∧
      t.pc = s.pc + 2 ∧ SameBut [.pc, .err] s t

/-- The hard failure and the error entry (60_exceptions.md sections 2 and 3). Latch, record and code are the spec's
own decision D6 (log 8), the byte order D2 (log 3). -/
def Obligations.UnknownFamilyHaltsTheCore : Prop :=
  ∀ s : State, s.halted = false → decode (s.memRead s.pc ++ s.memRead (s.pc + 1)) = .unknownFamily →
    ∃ t, step s = .next t ∧ t.statusExport = (true, 2, s.memRead s.pc ++ s.memRead (s.pc + 1), s.pc) ∧
      t.pc = s.pc + 2 ∧ SameBut [.pc, .halted, .err] s t

/-- Stack underflow (40_control.md section 2, 60_exceptions.md sections 2 and 3). That the core always halts, and how,
is the spec's own decision D6 (log 8). -/
def Obligations.ReturnOnEmptyStackHaltsTheCore : Prop :=
  ∀ s : State, s.halted = false → decode (s.memRead s.pc ++ s.memRead (s.pc + 1)) = .instr .ret → s.sp.val = 0 →
    ∃ t, step s = .next t ∧ t.statusExport = (true, 3, s.memRead s.pc ++ s.memRead (s.pc + 1), s.pc) ∧
      t.pc = s.pc + 2 ∧ SameBut [.pc, .halted, .err] s t

/-- Stack overflow (40_control.md section 2, 60_exceptions.md sections 2 and 3). The depth and the error are the
spec's own decision D5 (log 5), the error entry its decision D6 (log 8). -/
def Obligations.CallOnFullStackHaltsTheCore : Prop :=
  ∀ (s : State) (nnn : Addr12), s.halted = false → decode (s.memRead s.pc ++ s.memRead (s.pc + 1)) = .instr (.call nnn) →
    s.sp.val = Config.stackDepth →
    ∃ t, step s = .next t ∧ t.statusExport = (true, 4, s.memRead s.pc ++ s.memRead (s.pc + 1), s.pc) ∧
      t.pc = s.pc + 2 ∧ SameBut [.pc, .halted, .err] s t

/-- Halted (60_exceptions.md section 3; the spec's own decisions D6 and D20, log 8). -/
def Obligations.HaltedStepChangesNothing : Prop :=
  ∀ s : State, s.halted = true → step s = .next s

/-- The fetch cannot fault, decode is total and every error is a state (40_control.md section 1, 20_memory.md section
2, 60_exceptions.md section 2). That an error is a state and not an end rests on the spec's own decision D6 (log 8).
-/
def Obligations.EveryStepAnswersAState : Prop :=
  ∀ s : State, ∃ t, step s = .next t

/-! ### Control transfer -/

/-- Rule R103. -/
def Obligations.JumpGoesToItsTarget : Prop :=
  (∀ w : Word, w.extractLsb' 12 4 = 0x1 → decode w = .instr (.jp (w.extractLsb' 0 12))) ∧
  ∀ (nnn : Addr12) (s : State), ∃ t, exec (.jp nnn) s = .next t ∧ t.pc.toNat = nnn.toNat ∧ SameBut [.pc] s t

/-- 2nnn where it does not overflow (40_control.md section 2); the depth is the spec's own decision D5 (log 5). -/
def Obligations.CallSavesThePcAndJumps : Prop :=
  ∀ (nnn : Addr12) (s : State), s.sp.val < Config.stackDepth →
    ∃ t, exec (.call nnn) s = .next t ∧ t.pc.toNat = nnn.toNat ∧ t.sp.val = s.sp.val + 1 ∧
      (∀ (k : Nat) (h : k < Config.stackDepth), t.stack[k] = if k = s.sp.val then s.pc else s.stack[k]) ∧
      SameBut [.pc, .stack] s t

/-- 00EE where it does not underflow (40_control.md section 2). The slot array is the spec's own decision D5 (log 5).
-/
def Obligations.ReturnTakesTheSavedPc : Prop :=
  ∀ s : State, 0 < s.sp.val →
    ∃ t, exec .ret s = .next t ∧ (∀ h : s.sp.val - 1 < Config.stackDepth, t.pc = s.stack[s.sp.val - 1]) ∧
      t.sp.val = s.sp.val - 1 ∧ t.stack = s.stack ∧ SameBut [.pc, .stack] s t

/-- The round-trip property of 40_control.md section 2 (vector S-5 of 95_test_vectors.md). The slot array is the
spec's own decision D5 (log 5). -/
def Obligations.CallThenReturnComesBack : Prop :=
  ∀ (s : State) (nnn : Addr12), s.halted = false → s.fetched = .instr (.call nnn) → s.sp.val < Config.stackDepth →
    ∃ t, step s = .next t ∧ (t.fetched = .instr .ret →
      ∃ u, step t = .next u ∧ u.pc = s.pc + 2 ∧ u.sp = s.sp ∧
        (∀ (k : Nat) (h : k < Config.stackDepth), k < s.sp.val → u.stack[k] = s.stack[k]) ∧ SameBut [.pc, .stack] s u)

/-- Rules R105 and R106: exactly one of the two skips. -/
def Obligations.SkipOnImmediateComparison : Prop :=
  (∀ w : Word, w.extractLsb' 12 4 = 0x3 → decode w = .instr (.seImm (w.extractLsb' 8 4).toFin (w.extractLsb' 0 8))) ∧
  (∀ w : Word, w.extractLsb' 12 4 = 0x4 → decode w = .instr (.sneImm (w.extractLsb' 8 4).toFin (w.extractLsb' 0 8))) ∧
  ∀ (x : Reg) (nn : Byte) (s : State),
    (∃ t, exec (.seImm x nn) s = .next t ∧ t.pc = (if s.reg x = nn then s.pc + 2 else s.pc) ∧ SameBut [.pc] s t) ∧
    (∃ t, exec (.sneImm x nn) s = .next t ∧ t.pc = (if s.reg x = nn then s.pc else s.pc + 2) ∧ SameBut [.pc] s t)

/-- 9xy0 (40_control.md section 3). That the low nibble is not decoded is the spec's own decision D8 (log 10). -/
def Obligations.SkipOnRegisterComparison : Prop :=
  ∀ (x y : Reg) (n : Nibble) (s : State),
    ∃ t, exec (.sneReg x y n) s = .next t ∧ t.pc = (if s.reg x = s.reg y then s.pc else s.pc + 2) ∧ SameBut [.pc] s t

/-! ### Register load, arithmetic, logic, shift, random -/

/-- Rules R121 and R123. -/
def Obligations.LoadImmediateAndCopyWriteOneRegister : Prop :=
  (∀ w : Word, w.extractLsb' 12 4 = 0x6 → decode w = .instr (.ldImm (w.extractLsb' 8 4).toFin (w.extractLsb' 0 8))) ∧
  (∀ w : Word, w.extractLsb' 12 4 = 0x8 → w.extractLsb' 0 4 = 0x0 →
    decode w = .instr (.ldReg (w.extractLsb' 8 4).toFin (w.extractLsb' 4 4).toFin)) ∧
  ∀ (x y : Reg) (nn : Byte) (s : State),
    (∃ t, exec (.ldImm x nn) s = .next t ∧ (∀ r, t.reg r = if r = x then nn else s.reg r) ∧ SameBut [.v] s t) ∧
    (∃ t, exec (.ldReg x y) s = .next t ∧ (∀ r, t.reg r = if r = x then s.reg y else s.reg r) ∧ SameBut [.v] s t)

/-- Rule R122, its source property included. -/
def Obligations.AddImmediateWrapsWithoutAFlag : Prop :=
  (∀ w : Word, w.extractLsb' 12 4 = 0x7 → decode w = .instr (.addImm (w.extractLsb' 8 4).toFin (w.extractLsb' 0 8))) ∧
  ∀ (x : Reg) (nn : Byte) (s : State),
    ∃ t, exec (.addImm x nn) s = .next t ∧ (t.reg x).toNat = ((s.reg x).toNat + nn.toNat) % 256 ∧
      (∀ r, r ≠ x → t.reg r = s.reg r) ∧ SameBut [.v] s t ∧
      (s.reg x = 0 → ∃ u, exec (.addImm x nn) t = .next u ∧ (u.reg x).toNat = (2 * nn.toNat) % 256)

/-- Rules R124 and R125. -/
def Obligations.AndXorActBitByBit : Prop :=
  (∀ w : Word, w.extractLsb' 12 4 = 0x8 → w.extractLsb' 0 4 = 0x2 →
    decode w = .instr (.andReg (w.extractLsb' 8 4).toFin (w.extractLsb' 4 4).toFin)) ∧
  (∀ w : Word, w.extractLsb' 12 4 = 0x8 → w.extractLsb' 0 4 = 0x3 →
    decode w = .instr (.xorReg (w.extractLsb' 8 4).toFin (w.extractLsb' 4 4).toFin)) ∧
  ∀ (x y : Reg) (s : State),
    (∃ t, exec (.andReg x y) s = .next t ∧
      (∀ k, (t.reg x).getLsbD k = ((s.reg x).getLsbD k && (s.reg y).getLsbD k)) ∧
      (∀ r, r ≠ x → t.reg r = s.reg r) ∧ SameBut [.v] s t) ∧
    (∃ t, exec (.xorReg x y) s = .next t ∧
      (∀ k, (t.reg x).getLsbD k = ((s.reg x).getLsbD k != (s.reg y).getLsbD k)) ∧
      (∀ r, r ≠ x → t.reg r = s.reg r) ∧ SameBut [.v] s t)

/-- Rule R126; with x or y = F both readings of 93_implementation_defined.md U21 agree. -/
def Obligations.AddRegistersWrapsAndSetsTheCarry : Prop :=
  (∀ w : Word, w.extractLsb' 12 4 = 0x8 → w.extractLsb' 0 4 = 0x4 →
    decode w = .instr (.addReg (w.extractLsb' 8 4).toFin (w.extractLsb' 4 4).toFin)) ∧
  ∀ (x y : Reg) (s : State),
    ∃ t, exec (.addReg x y) s = .next t ∧
      (∀ r, (t.reg r).toNat =
        if r = 15 then (if (s.reg x).toNat + (s.reg y).toNat > 255 then 1 else 0)
        else if r = x then ((s.reg x).toNat + (s.reg y).toNat) % 256
        else (s.reg r).toNat) ∧
      SameBut [.v] s t

/-- Rule R127; with x or y = F both readings of 93_implementation_defined.md U21 agree. -/
def Obligations.SubtractRegistersWrapsAndSetsNotBorrow : Prop :=
  (∀ w : Word, w.extractLsb' 12 4 = 0x8 → w.extractLsb' 0 4 = 0x5 →
    decode w = .instr (.subReg (w.extractLsb' 8 4).toFin (w.extractLsb' 4 4).toFin)) ∧
  ∀ (x y : Reg) (s : State),
    ∃ t, exec (.subReg x y) s = .next t ∧
      (∀ r, (t.reg r).toNat =
        if r = 15 then (if (s.reg x).toNat < (s.reg y).toNat then 0 else 1)
        else if r = x then
          (if (s.reg x).toNat < (s.reg y).toNat then (s.reg x).toNat + 256 - (s.reg y).toNat
            else (s.reg x).toNat - (s.reg y).toNat)
        else (s.reg r).toNat) ∧
      SameBut [.v] s t

/-- 8xy6 (41_alu.md section 3). The clause for x = F rests on the spec's own decision D9 (log 11). -/
def Obligations.ShiftRightHalvesAndKeepsTheLostBit : Prop :=
  ∀ (x : Reg) (y : Nibble) (s : State),
    ∃ t, exec (.shr x y) s = .next t ∧
      (∀ r, (t.reg r).toNat =
        if r = x then (s.reg x).toNat / 2
        else if r = 15 then (s.reg x).toNat % 2
        else (s.reg r).toNat) ∧
      SameBut [.v] s t

/-- Cxnn (41_alu.md section 4) for every value of the draw: `Config.rnd` is a free value (the spec's own decision D15,
log 12). -/
def Obligations.RandomByteIsDrawnAndMasked : Prop :=
  ∀ (x : Reg) (nn : Byte) (s : State) (r : Byte), Config.rnd s.draws = r →
    ∃ t, exec (.rnd x nn) s = .next t ∧
      (∀ k, (t.reg x).getLsbD k = (r.getLsbD k && nn.getLsbD k)) ∧
      (∀ q, q ≠ x → t.reg q = s.reg q) ∧ t.draws = s.draws + 1 ∧ SameBut [.v, .draws] s t

/-! ### Address register, BCD, store and load -/

/-- Rules R140 and R141. -/
def Obligations.IndexRegisterLoadAndAdd : Prop :=
  (∀ w : Word, w.extractLsb' 12 4 = 0xA → decode w = .instr (.ldI (w.extractLsb' 0 12))) ∧
  (∀ w : Word, w.extractLsb' 12 4 = 0xF → w.extractLsb' 0 8 = 0x1E →
    decode w = .instr (.addI (w.extractLsb' 8 4).toFin)) ∧
  ∀ (nnn : Addr12) (x : Reg) (s : State),
    (∃ t, exec (.ldI nnn) s = .next t ∧ t.i.toNat = nnn.toNat ∧ SameBut [.i] s t) ∧
    (∃ t, exec (.addI x) s = .next t ∧ t.i.toNat = (s.i.toNat + (s.reg x).toNat) % 65536 ∧ SameBut [.i] s t)

/-- Fx29 (42_index_memory.md section 1). The value for a byte above 15 is the spec's own decision D14 (log 17). -/
def Obligations.GlyphAddressIsFiveTimesTheByte : Prop :=
  ∀ (x : Reg) (s : State), ∃ t, exec (.ldF x) s = .next t ∧ t.i.toNat = 5 * (s.reg x).toNat ∧ SameBut [.i] s t

/-- Fx33 (42_index_memory.md section 2). How addresses wrap is the spec's own decisions D1 and D3 (logs 1 and 4). -/
def Obligations.BcdStoresThreeDigits : Prop :=
  ∀ (x : Reg) (s : State), Memory.wf s.mem = true →
    ∃ t, exec (.ldB x) s = .next t ∧
      (t.memRead s.i).toNat = (s.reg x).toNat / 100 ∧
      (t.memRead (s.i + 1)).toNat = (s.reg x).toNat / 10 % 10 ∧
      (t.memRead (s.i + 2)).toNat = (s.reg x).toNat % 10 ∧
      (∀ a : Word, (∀ k < 3, memIndex a ≠ memIndex (s.effAddr k)) → t.memRead a = s.memRead a) ∧
      SameBut [.mem] s t

/-- Fx55 (42_index_memory.md section 2; 90_conflicts.md C1, log 22). How addresses wrap is the spec's own decisions D1
and D3 (logs 1 and 4). -/
def Obligations.StoreRegistersWritesThemFromIOn : Prop :=
  ∀ (x : Reg) (s : State), Memory.wf s.mem = true →
    ∃ t, exec (.storeRegs x) s = .next t ∧
      (∀ r : Reg, r ≤ x → t.memRead (s.effAddr r.val) = s.reg r) ∧
      (∀ a : Word, (∀ k < x.val + 1, memIndex a ≠ memIndex (s.effAddr k)) → t.memRead a = s.memRead a) ∧
      t.i.toNat = (s.i.toNat + x.val + 1) % 65536 ∧ SameBut [.mem, .i] s t

/-- Fx65 (42_index_memory.md section 3; 90_conflicts.md C1, log 22). How addresses wrap is the spec's own decision D3
(log 4). -/
def Obligations.LoadRegistersReadsThemFromIOn : Prop :=
  ∀ (x : Reg) (s : State),
    ∃ t, exec (.loadRegs x) s = .next t ∧
      (∀ r : Reg, t.reg r = if r ≤ x then s.memRead (s.i + BitVec.ofNat 16 r.val) else s.reg r) ∧
      t.i.toNat = (s.i.toNat + x.val + 1) % 65536 ∧ SameBut [.v, .i] s t

/-- Fx55 and Fx65 pair registers and addresses alike, across both wraps (42_index_memory.md sections 2 and 3; the
spec's own decision D3, log 4). -/
def Obligations.StoreThenLoadGivesTheRegistersBack : Prop :=
  ∀ (x : Reg) (s : State), Memory.wf s.mem = true →
    ∃ t, exec (.storeRegs x) s = .next t ∧
      ∀ t' : State, t'.i = s.i → (∀ a, t'.memRead a = t.memRead a) →
        ∃ u, exec (.loadRegs x) t' = .next u ∧ (∀ r : Reg, r ≤ x → u.reg r = s.reg r) ∧ u.i = t.i

/-- Instruction-fetch coherence (20_memory.md section 8; derived there). The byte order is the spec's own decision D2
(log 3). -/
def Obligations.StoreIsSeenByTheNextFetch : Prop :=
  ∀ (x : Reg) (k : Nat) (hk : k + 1 ≤ x.val) (s : State), Memory.wf s.mem = true → s.pc = s.i + BitVec.ofNat 16 k →
    ∃ t, exec (.storeRegs x) s = .next t ∧ t.pc = s.pc ∧
      t.fetched = decode (s.reg ⟨k, by omega⟩ ++ s.reg ⟨k + 1, by omega⟩)

/-! ### Display -/

/-- 00E0 (43_display.md). That it sets DIRTY is the spec's own decision D11 (log 14). -/
def Obligations.ClearTurnsEveryPixelOff : Prop :=
  ∀ s : State, ∃ t, exec .cls s = .next t ∧ (∀ row col, t.pixel row col = false) ∧ t.dirty = true ∧
    SameBut [.disp, .dirty] s t

/-- Dxyn (43_display.md). The wrap is the spec's own decision D10 (log 13), the dirty signal D11 (log 14), the address
wrap D3 (log 4). -/
def Obligations.DrawXorsTheSpriteAndReportsCollision : Prop :=
  ∀ (x y : Reg) (n : Nibble) (s : State),
    ∃ t, exec (.drw x y n) s = .next t ∧
      (∀ row col, s.spriteLands (s.reg x).toNat (s.reg y).toNat n.toNat row col → t.pixel row col = !s.pixel row col) ∧
      (∀ row col, ¬ s.spriteLands (s.reg x).toNat (s.reg y).toNat n.toNat row col → t.pixel row col = s.pixel row col) ∧
      ((∃ row col, s.spriteLands (s.reg x).toNat (s.reg y).toNat n.toNat row col ∧ s.pixel row col = true) →
        t.reg 15 = 0x01) ∧
      ((∀ row col, s.spriteLands (s.reg x).toNat (s.reg y).toNat n.toNat row col → s.pixel row col = false) →
        t.reg 15 = 0x00) ∧
      (∀ r, r ≠ 15 → t.reg r = s.reg r) ∧ t.dirty = true ∧ SameBut [.v, .disp, .dirty] s t

/-- The XOR law of 43_display.md (derived there; vector S-6 of 95_test_vectors.md). A program must not use VF as a
coordinate. The wrap is the spec's own decision D10 (log 13). -/
def Obligations.DrawingTwiceRestoresTheDisplay : Prop :=
  ∀ (x y : Reg) (n : Nibble) (s : State), x ≠ 15 → y ≠ 15 →
    ∃ t u, exec (.drw x y n) s = .next t ∧ exec (.drw x y n) t = .next u ∧
      (∀ row col, u.pixel row col = s.pixel row col) ∧
      (u.reg 15 = 0x01 ↔
        ∃ row col, s.spriteLands (s.reg x).toNat (s.reg y).toNat n.toNat row col ∧ s.pixel row col = false) ∧
      (u.reg 15 = 0x00 ∨ u.reg 15 = 0x01)

/-- Draws commute in their effect on the display (43_display.md; derived there). The wrap is the spec's own decision
D10 (log 13). -/
def Obligations.DrawsOfDifferentSpritesCommute : Prop :=
  ∀ (x y x' y' : Reg) (n n' : Nibble) (a a' : Word) (s : State), x ≠ 15 → y ≠ 15 → x' ≠ 15 → y' ≠ 15 →
    ∃ t u t' u', exec (.drw x y n) (s.setI a) = .next t ∧ exec (.drw x' y' n') (t.setI a') = .next u ∧
      exec (.drw x' y' n') (s.setI a') = .next t' ∧ exec (.drw x y n) (t'.setI a) = .next u' ∧
      ∀ row col, u.pixel row col = u'.pixel row col

/-! ### Keys and timers -/

/-- Ex9E and ExA1 (44_input_timers.md section 1). The index of a byte above 15 is the spec's own decision D12 (log
15). -/
def Obligations.KeySkipsTestTheNamedKey : Prop :=
  ∀ (x : Reg) (k : Fin Config.nKeys) (s : State), k.val = (s.reg x).toNat % 16 →
    (∃ t, exec (.skp x) s = .next t ∧ t.pc = (if s.keyHeld k then s.pc + 2 else s.pc) ∧ SameBut [.pc] s t) ∧
    (∃ t, exec (.sknp x) s = .next t ∧ t.pc = (if s.keyHeld k then s.pc else s.pc + 2) ∧ SameBut [.pc] s t)

/-- Fx0A with a key held (44_input_timers.md section 2). The least index is the spec's own decision D13 (log 16). -/
def Obligations.KeyWaitTakesTheLeastHeldKey : Prop :=
  ∀ (x : Reg) (k : Fin Config.nKeys) (s : State), s.keyHeld k = true → (∀ j, j < k → s.keyHeld j = false) →
    ∃ t, exec (.ldVxK x) s = .next t ∧ (t.reg x).toNat = k.val ∧ (∀ r, r ≠ x → t.reg r = s.reg r) ∧ SameBut [.v] s t

/-- A poll that finds no key changes no state at all (44_input_timers.md section 2). That the rewind is modulo 65536
is the spec's own decision D23 (log 4). -/
def Obligations.KeyWaitPollChangesNothing : Prop :=
  ∀ (x : Reg) (s : State), s.halted = false → s.fetched = .instr (.ldVxK x) → (∀ k, s.keyHeld k = false) →
    step s = .next s

/-- Rules R183 and R184. -/
def Obligations.TimerLoadsMoveOneByte : Prop :=
  (∀ w : Word, w.extractLsb' 12 4 = 0xF → w.extractLsb' 0 8 = 0x07 →
    decode w = .instr (.ldVxDt (w.extractLsb' 8 4).toFin)) ∧
  (∀ w : Word, w.extractLsb' 12 4 = 0xF → w.extractLsb' 0 8 = 0x15 →
    decode w = .instr (.ldDtVx (w.extractLsb' 8 4).toFin)) ∧
  ∀ (x : Reg) (s : State),
    (∃ t, exec (.ldVxDt x) s = .next t ∧ (∀ r, t.reg r = if r = x then s.dt else s.reg r) ∧ SameBut [.v] s t) ∧
    (∃ t, exec (.ldDtVx x) s = .next t ∧ t.dt = s.reg x ∧ SameBut [.dt] s t)

/-- Fx18 (44_input_timers.md section 3). That sound is a level is the spec's own decision D18 (log 26). -/
def Obligations.SoundTimerLoadSetsTheSoundLevel : Prop :=
  ∀ (x : Reg) (s : State),
    ∃ t, exec (.ldStVx x) s = .next t ∧ t.st = s.reg x ∧ (t.soundOn = true ↔ s.reg x ≠ 0) ∧ SameBut [.st] s t

/-! ### The host's operations -/

/-- The Tick operation (60_exceptions.md section 6). That it acts on a halted core too is the spec's own decision D27
(log 21). -/
def Obligations.TickLowersEachTimerByOne : Prop :=
  ∀ s : State, ∃ t, act .tick s = .next t ∧ t.dt.toNat = s.dt.toNat - 1 ∧ t.st.toNat = s.st.toNat - 1 ∧
    SameBut [.dt, .st] s t

/-- Repeated Ticks (60_exceptions.md section 6). -/
def Obligations.ManyTicksCountDownToZero : Prop :=
  ∀ (n : Nat) (s : State), ∃ t, runOps (List.replicate n .tick) s = .next t ∧
    t.dt.toNat = s.dt.toNat - n ∧ t.st.toNat = s.st.toNat - n ∧ SameBut [.dt, .st] s t

/-- Rule R215. -/
def Obligations.KeySetChangesOneSlot : Prop :=
  (∀ (k : Fin Config.nKeys) (v : Bool) (s : State),
    ∃ t, act (.keySet k v) s = .next t ∧ (∀ j, t.keyHeld j = if j = k then v else s.keyHeld j) ∧ SameBut [.key] s t) ∧
  (∀ s t : State, step s = .next t → ∀ j, t.keyHeld j = s.keyHeld j)

/-- FrameAck (60_exceptions.md section 7; the dirty signal is the spec's own decision D11, log 14). -/
def Obligations.FrameAckClearsTheDirtySignal : Prop :=
  ∀ s : State, ∃ t, act .frameAck s = .next t ∧ t.dirty = false ∧ SameBut [.dirty] s t

/-- Rule R243, in terms of `MEM_SIZE`. -/
def Obligations.ResetLoadsTheRomOrFails : Prop :=
  (∀ (rom : List Byte) (s : State), rom.length ≤ Config.memSize - 0x200 →
    ∃ t, act (.reset rom) s = .next t ∧
      ∀ (k : Nat) (h : k < rom.length), t.memRead (0x200 + BitVec.ofNat 16 k) = rom[k]) ∧
  (∀ (rom : List Byte) (s : State), Config.memSize - 0x200 < rom.length → act (.reset rom) s = .fault .loadError)

/-- The table of 10_state.md section 10. V, I and PC are the source's; the other values are the spec's own decisions
D4, D6, D11 and D16 (logs 2 and 7). -/
def Obligations.ResetZeroesTheRegisters : Prop :=
  ∀ (rom : List Byte) (s : State), rom.length ≤ Config.romMax →
    ∃ t, act (.reset rom) s = .next t ∧ (∀ r, t.reg r = 0) ∧ t.i = 0 ∧ t.pc = 0x200 ∧ t.sp.val = 0 ∧
      t.dt = 0 ∧ t.st = 0 ∧ (∀ row col, t.pixel row col = false) ∧ (∀ k, t.keyHeld k = false) ∧
      t.dirty = false ∧ t.statusExport = (false, 0, 0, 0) ∧
      (∀ a : Word, (∀ k < rom.length, memIndex a ≠ 0x200 + k) → t.memRead a = State.reset.memRead a)

/-! ### The whole machine -/

/-- The random input is outside the machine and each executed Cxnn takes a fresh draw (41_alu.md section 4; the spec's
own decision D15). The counter `draws` that says so is the model's own (log 12). -/
def Obligations.NoDrawIsTakenTwice : Prop :=
  ∀ (x : Reg) (nn : Byte) (ops : List HostOp) (s t u : State),
    exec (.rnd x nn) s = .next t → runOps ops t = .next u → s.draws < u.draws

/-- The invariant `Inv` at reset (10_state.md section 10; the spec's own decision D6, logs 7 and 8). -/
def Obligations.ResetMeetsTheInvariant : Prop :=
  Inv State.reset

/-- The invariant `Inv` (10_state.md section 7, 60_exceptions.md sections 1 to 3). Latch and record are the spec's own
decision D6 (log 8), the overflow D5 (log 5); the canonical memory is the model's (log 2). -/
def Obligations.StepKeepsTheInvariant : Prop :=
  ∀ s t : State, Inv s → step s = .next t → Inv t

/-- The invariant over every interleaving of whole operations (60_exceptions.md section 7; the spec's own decisions D6
and D17, logs 8 and 21). -/
def Obligations.HostOperationsKeepTheInvariant : Prop :=
  ∀ (ops : List HostOp) (s t : State), Inv s → runOps ops s = .next t → Inv t

/-- The access summary of 10_state.md section 9 (derived there). The halt latch and ERR among the parts are the spec's
own decision D6 (log 8); `draws` is the model's (log 12). -/
def Obligations.InstructionsChangeOnlyWhatTheyMayWrite : Prop :=
  ∀ (i : Instr) (s t : State), exec i s = .next t → SameBut (partsWritten i) s t

/-- Which instructions write general registers (10_state.md sections 1 and 2; derived there). -/
def Obligations.InstructionsWriteOnlyTheirRegisters : Prop :=
  ∀ (i : Instr) (s t : State) (r : Reg), exec i s = .next t → t.reg r ≠ s.reg r → mayWriteReg i r

/-- DIRTY and ERR are never read by an instruction and ST cannot be read by any (10_state.md sections 5 and 7; DIRTY
and ERR are the spec's own decisions D11 and D6, logs 8, 9 and 14). -/
def Obligations.HostStatusIsInvisibleToPrograms : Prop :=
  ∀ (s t : State) (d : Bool) (e : ErrRecord) (b : Byte), step s = .next t →
    ∃ u, step { s with dirty := d, err := e, st := b } = .next u ∧ SameBut [.dirty, .err, .st] t u

/-- Halted (60_exceptions.md section 3; the spec's own decisions D6 and D20, log 8). -/
def Obligations.HaltPersistsUntilReset : Prop :=
  ∀ (ops : List HostOp) (s : State), s.halted = true → (∀ op ∈ ops, op.keepsMachine = true) →
    ∃ t, runOps ops s = .next t ∧ SameBut [.dt, .st, .key, .dirty] s t

/-- Only Reset clears HALTED (60_exceptions.md section 3; the spec's own decisions D6 and D20, log 8). -/
def Obligations.SafeRunsAreSafeThroughout : Prop :=
  ∀ (ops ops' : List HostOp) (s : State), (∀ op ∈ ops', op.keepsMachine = true) → SafeRun (ops ++ ops') s → SafeRun ops s

/-- The end of a run (70_reset_and_hazards.md section 2). That a program ends so is the spec's own convention D21. -/
def Obligations.SelfJumpIsAFixedPoint : Prop :=
  ∀ s : State, s.halted = false → s.atSelfJump → step s = .next s
end

