-- ==== Sys2Proof/Laws/Decode.lean ====
section
/-! SUPPORT. The fields of the word of each format, and each format's word from its fields (rules R71, R72, 30_encoding.md); bytes and words (rule R55). -/

namespace Sys2Proof

/-! ### Fields of a format's word -/

@[simp] theorem regBits_toFin (x : Reg) : (regBits x).toFin = x := rfl

@[simp] theorem opField_formatA (op : Nibble) (nnn : Addr12) : opField (formatA op nnn) = op :=
  BitVec.extractLsb'_append_eq_left

@[simp] theorem nnnField_formatA (op : Nibble) (nnn : Addr12) : nnnField (formatA op nnn) = nnn :=
  BitVec.extractLsb'_append_eq_right

/-- Format XB is format A with `nnn = x : nn` (rule R71). -/
theorem formatXB_eq (op : Nibble) (x : Reg) (nn : Byte) : formatXB op x nn = formatA op (regBits x ++ nn) := rfl

/-- Format XYN is format XB with `nn = y : n` (rule R71). -/
theorem formatXYN_eq (op : Nibble) (x : Reg) (y n : Nibble) : formatXYN op x y n = formatXB op x (y ++ n) := rfl

/-- `x` is the top nibble of `nnn` (rule R71). -/
theorem xBits_eq (w : Word) : xBits w = (nnnField w).extractLsb' 8 4 := by
  apply BitVec.eq_of_getLsbD_eq; intro i hi; simp [xBits, nnnField]

/-- `nn` is the low byte of `nnn` (rule R71). -/
theorem nnField_eq (w : Word) : nnField w = (nnnField w).extractLsb' 0 8 := by
  apply BitVec.eq_of_getLsbD_eq; intro i hi; simp [nnField, nnnField]

/-- `y` is the high nibble of `nn` (rule R71). -/
theorem yBits_eq (w : Word) : yBits w = (nnField w).extractLsb' 4 4 := by
  apply BitVec.eq_of_getLsbD_eq; intro i hi; simp [yBits, nnField]

/-- `n` is the low nibble of `nn` (rule R71). -/
theorem nField_eq (w : Word) : nField w = (nnField w).extractLsb' 0 4 := by
  apply BitVec.eq_of_getLsbD_eq; intro i hi; simp [nField, nnField]

@[simp] theorem opField_formatXB (op : Nibble) (x : Reg) (nn : Byte) : opField (formatXB op x nn) = op :=
  opField_formatA op _

@[simp] theorem nnField_formatXB (op : Nibble) (x : Reg) (nn : Byte) : nnField (formatXB op x nn) = nn := by
  rw [nnField_eq, formatXB_eq, nnnField_formatA]; exact BitVec.extractLsb'_append_eq_right

@[simp] theorem xField_formatXB (op : Nibble) (x : Reg) (nn : Byte) : xField (formatXB op x nn) = x := by
  have h : xBits (formatXB op x nn) = regBits x := by
    rw [xBits_eq, formatXB_eq, nnnField_formatA]; exact BitVec.extractLsb'_append_eq_left
  rw [xField, h, regBits_toFin]

@[simp] theorem opField_formatXYN (op : Nibble) (x : Reg) (y n : Nibble) : opField (formatXYN op x y n) = op :=
  opField_formatA op _

@[simp] theorem xField_formatXYN (op : Nibble) (x : Reg) (y n : Nibble) : xField (formatXYN op x y n) = x :=
  xField_formatXB op x _

@[simp] theorem yBits_formatXYN (op : Nibble) (x : Reg) (y n : Nibble) : yBits (formatXYN op x y n) = y := by
  rw [yBits_eq, formatXYN_eq, nnField_formatXB]; exact BitVec.extractLsb'_append_eq_left

@[simp] theorem nField_formatXYN (op : Nibble) (x : Reg) (y n : Nibble) : nField (formatXYN op x y n) = n := by
  rw [nField_eq, formatXYN_eq, nnField_formatXB]; exact BitVec.extractLsb'_append_eq_right

@[simp] theorem yField_formatXYN (op : Nibble) (x y : Reg) (n : Nibble) : yField (formatXYN op x (regBits y) n) = y := by
  rw [yField, yBits_formatXYN, regBits_toFin]

/-! ### A word from its fields -/

theorem regBits_xField (w : Word) : regBits (xField w) = xBits w := rfl

theorem regBits_yField (w : Word) : regBits (yField w) = yBits w := rfl

theorem formatA_fields (w : Word) : formatA (opField w) (nnnField w) = w := by
  apply BitVec.eq_of_getLsbD_eq
  intro i hi
  simp only [formatA, opField, nnnField, BitVec.getLsbD_append, BitVec.getLsbD_extractLsb']
  split
  · simp; omega
  · have : i - 12 < 4 := by omega
    have e : 12 + (i - 12) = i := by omega
    simp [this, e]

theorem nnnField_split (w : Word) : xBits w ++ nnField w = nnnField w := by
  rw [xBits_eq, nnField_eq]
  generalize nnnField w = a
  apply BitVec.eq_of_getLsbD_eq
  intro i hi
  simp only [BitVec.getLsbD_append, BitVec.getLsbD_extractLsb']
  split
  · simp; omega
  · have : i - 8 < 4 := by omega
    have e : 8 + (i - 8) = i := by omega
    simp [this, e]

theorem nnField_split (w : Word) : yBits w ++ nField w = nnField w := by
  rw [yBits_eq, nField_eq]
  generalize nnField w = a
  apply BitVec.eq_of_getLsbD_eq
  intro i hi
  simp only [BitVec.getLsbD_append, BitVec.getLsbD_extractLsb']
  split
  · simp; omega
  · have : i - 4 < 4 := by omega
    have e : 4 + (i - 4) = i := by omega
    simp [this, e]

theorem formatXB_fields (w : Word) : formatXB (opField w) (xField w) (nnField w) = w := by
  rw [formatXB_eq, regBits_xField, nnnField_split, formatA_fields]

theorem formatXYN_fields (w : Word) : formatXYN (opField w) (xField w) (yBits w) (nField w) = w := by
  rw [formatXYN_eq, nnField_split, formatXB_fields]

/-! ### Bytes and words -/

@[simp] theorem highByte_wordOfBytes (hi lo : Byte) : highByte (wordOfBytes hi lo) = hi :=
  BitVec.extractLsb'_append_eq_left

@[simp] theorem lowByte_wordOfBytes (hi lo : Byte) : lowByte (wordOfBytes hi lo) = lo :=
  BitVec.extractLsb'_append_eq_right

theorem wordOfBytes_bytes (w : Word) : wordOfBytes (highByte w) (lowByte w) = w := by
  apply BitVec.eq_of_getLsbD_eq
  intro i hi
  simp only [wordOfBytes, highByte, lowByte, BitVec.getLsbD_append, BitVec.getLsbD_extractLsb']
  split
  · simp; omega
  · have : i - 8 < 8 := by omega
    have e : 8 + (i - 8) = i := by omega
    simp [this, e]

/-- The fields as numbers (rule R71). -/
theorem toNat_opField (w : Word) : (opField w).toNat = w.toNat / 4096 := by
  have := w.isLt
  simp only [opField, BitVec.extractLsb'_toNat, Nat.shiftRight_eq_div_pow]
  omega

theorem toNat_nField (w : Word) : (nField w).toNat = w.toNat % 16 := by
  simp [nField, BitVec.extractLsb'_toNat]

theorem toNat_nnField (w : Word) : (nnField w).toNat = w.toNat % 256 := by
  simp [nnField, BitVec.extractLsb'_toNat]

end Sys2Proof
end

