-- ==== Sys2Proof/Laws/State.lean ====
section
/-! SUPPORT. One lemma per field of State per update (true by unfolding the record update once), so that no later proof unfolds a record update; and what each read sees after each update. -/

namespace Sys2Proof.Machine

@[simp] theorem add16_eq (a b : Word) : add16 a b = a + b := rfl

/-! ### setReg -/

@[simp] theorem State.setReg_v (s : State) (r : Reg) (b : Byte) : (s.setReg r b).v = s.v.set r b := rfl
@[simp] theorem State.setReg_i (s : State) (r : Reg) (b : Byte) : (s.setReg r b).i = s.i := rfl
@[simp] theorem State.setReg_pc (s : State) (r : Reg) (b : Byte) : (s.setReg r b).pc = s.pc := rfl
@[simp] theorem State.setReg_stack (s : State) (r : Reg) (b : Byte) : (s.setReg r b).stack = s.stack := rfl
@[simp] theorem State.setReg_sp (s : State) (r : Reg) (b : Byte) : (s.setReg r b).sp = s.sp := rfl
@[simp] theorem State.setReg_dt (s : State) (r : Reg) (b : Byte) : (s.setReg r b).dt = s.dt := rfl
@[simp] theorem State.setReg_st (s : State) (r : Reg) (b : Byte) : (s.setReg r b).st = s.st := rfl
@[simp] theorem State.setReg_mem (s : State) (r : Reg) (b : Byte) : (s.setReg r b).mem = s.mem := rfl
@[simp] theorem State.setReg_disp (s : State) (r : Reg) (b : Byte) : (s.setReg r b).disp = s.disp := rfl
@[simp] theorem State.setReg_key (s : State) (r : Reg) (b : Byte) : (s.setReg r b).key = s.key := rfl
@[simp] theorem State.setReg_dirty (s : State) (r : Reg) (b : Byte) : (s.setReg r b).dirty = s.dirty := rfl
@[simp] theorem State.setReg_halted (s : State) (r : Reg) (b : Byte) : (s.setReg r b).halted = s.halted := rfl
@[simp] theorem State.setReg_err (s : State) (r : Reg) (b : Byte) : (s.setReg r b).err = s.err := rfl
@[simp] theorem State.setReg_draws (s : State) (r : Reg) (b : Byte) : (s.setReg r b).draws = s.draws := rfl

/-! ### setI -/

@[simp] theorem State.setI_v (s : State) (a : Word) : (s.setI a).v = s.v := rfl
@[simp] theorem State.setI_i (s : State) (a : Word) : (s.setI a).i = a := rfl
@[simp] theorem State.setI_pc (s : State) (a : Word) : (s.setI a).pc = s.pc := rfl
@[simp] theorem State.setI_stack (s : State) (a : Word) : (s.setI a).stack = s.stack := rfl
@[simp] theorem State.setI_sp (s : State) (a : Word) : (s.setI a).sp = s.sp := rfl
@[simp] theorem State.setI_dt (s : State) (a : Word) : (s.setI a).dt = s.dt := rfl
@[simp] theorem State.setI_st (s : State) (a : Word) : (s.setI a).st = s.st := rfl
@[simp] theorem State.setI_mem (s : State) (a : Word) : (s.setI a).mem = s.mem := rfl
@[simp] theorem State.setI_disp (s : State) (a : Word) : (s.setI a).disp = s.disp := rfl
@[simp] theorem State.setI_key (s : State) (a : Word) : (s.setI a).key = s.key := rfl
@[simp] theorem State.setI_dirty (s : State) (a : Word) : (s.setI a).dirty = s.dirty := rfl
@[simp] theorem State.setI_halted (s : State) (a : Word) : (s.setI a).halted = s.halted := rfl
@[simp] theorem State.setI_err (s : State) (a : Word) : (s.setI a).err = s.err := rfl
@[simp] theorem State.setI_draws (s : State) (a : Word) : (s.setI a).draws = s.draws := rfl

/-! ### setPc -/

@[simp] theorem State.setPc_v (s : State) (a : Word) : (s.setPc a).v = s.v := rfl
@[simp] theorem State.setPc_i (s : State) (a : Word) : (s.setPc a).i = s.i := rfl
@[simp] theorem State.setPc_pc (s : State) (a : Word) : (s.setPc a).pc = a := rfl
@[simp] theorem State.setPc_stack (s : State) (a : Word) : (s.setPc a).stack = s.stack := rfl
@[simp] theorem State.setPc_sp (s : State) (a : Word) : (s.setPc a).sp = s.sp := rfl
@[simp] theorem State.setPc_dt (s : State) (a : Word) : (s.setPc a).dt = s.dt := rfl
@[simp] theorem State.setPc_st (s : State) (a : Word) : (s.setPc a).st = s.st := rfl
@[simp] theorem State.setPc_mem (s : State) (a : Word) : (s.setPc a).mem = s.mem := rfl
@[simp] theorem State.setPc_disp (s : State) (a : Word) : (s.setPc a).disp = s.disp := rfl
@[simp] theorem State.setPc_key (s : State) (a : Word) : (s.setPc a).key = s.key := rfl
@[simp] theorem State.setPc_dirty (s : State) (a : Word) : (s.setPc a).dirty = s.dirty := rfl
@[simp] theorem State.setPc_halted (s : State) (a : Word) : (s.setPc a).halted = s.halted := rfl
@[simp] theorem State.setPc_err (s : State) (a : Word) : (s.setPc a).err = s.err := rfl
@[simp] theorem State.setPc_draws (s : State) (a : Word) : (s.setPc a).draws = s.draws := rfl

/-! ### setDt -/

@[simp] theorem State.setDt_v (s : State) (b : Byte) : (s.setDt b).v = s.v := rfl
@[simp] theorem State.setDt_i (s : State) (b : Byte) : (s.setDt b).i = s.i := rfl
@[simp] theorem State.setDt_pc (s : State) (b : Byte) : (s.setDt b).pc = s.pc := rfl
@[simp] theorem State.setDt_stack (s : State) (b : Byte) : (s.setDt b).stack = s.stack := rfl
@[simp] theorem State.setDt_sp (s : State) (b : Byte) : (s.setDt b).sp = s.sp := rfl
@[simp] theorem State.setDt_dt (s : State) (b : Byte) : (s.setDt b).dt = b := rfl
@[simp] theorem State.setDt_st (s : State) (b : Byte) : (s.setDt b).st = s.st := rfl
@[simp] theorem State.setDt_mem (s : State) (b : Byte) : (s.setDt b).mem = s.mem := rfl
@[simp] theorem State.setDt_disp (s : State) (b : Byte) : (s.setDt b).disp = s.disp := rfl
@[simp] theorem State.setDt_key (s : State) (b : Byte) : (s.setDt b).key = s.key := rfl
@[simp] theorem State.setDt_dirty (s : State) (b : Byte) : (s.setDt b).dirty = s.dirty := rfl
@[simp] theorem State.setDt_halted (s : State) (b : Byte) : (s.setDt b).halted = s.halted := rfl
@[simp] theorem State.setDt_err (s : State) (b : Byte) : (s.setDt b).err = s.err := rfl
@[simp] theorem State.setDt_draws (s : State) (b : Byte) : (s.setDt b).draws = s.draws := rfl

/-! ### setSt -/

@[simp] theorem State.setSt_v (s : State) (b : Byte) : (s.setSt b).v = s.v := rfl
@[simp] theorem State.setSt_i (s : State) (b : Byte) : (s.setSt b).i = s.i := rfl
@[simp] theorem State.setSt_pc (s : State) (b : Byte) : (s.setSt b).pc = s.pc := rfl
@[simp] theorem State.setSt_stack (s : State) (b : Byte) : (s.setSt b).stack = s.stack := rfl
@[simp] theorem State.setSt_sp (s : State) (b : Byte) : (s.setSt b).sp = s.sp := rfl
@[simp] theorem State.setSt_dt (s : State) (b : Byte) : (s.setSt b).dt = s.dt := rfl
@[simp] theorem State.setSt_st (s : State) (b : Byte) : (s.setSt b).st = b := rfl
@[simp] theorem State.setSt_mem (s : State) (b : Byte) : (s.setSt b).mem = s.mem := rfl
@[simp] theorem State.setSt_disp (s : State) (b : Byte) : (s.setSt b).disp = s.disp := rfl
@[simp] theorem State.setSt_key (s : State) (b : Byte) : (s.setSt b).key = s.key := rfl
@[simp] theorem State.setSt_dirty (s : State) (b : Byte) : (s.setSt b).dirty = s.dirty := rfl
@[simp] theorem State.setSt_halted (s : State) (b : Byte) : (s.setSt b).halted = s.halted := rfl
@[simp] theorem State.setSt_err (s : State) (b : Byte) : (s.setSt b).err = s.err := rfl
@[simp] theorem State.setSt_draws (s : State) (b : Byte) : (s.setSt b).draws = s.draws := rfl

/-! ### memWrite -/

@[simp] theorem State.memWrite_v (s : State) (a : Word) (b : Byte) : (s.memWrite a b).v = s.v := rfl
@[simp] theorem State.memWrite_i (s : State) (a : Word) (b : Byte) : (s.memWrite a b).i = s.i := rfl
@[simp] theorem State.memWrite_pc (s : State) (a : Word) (b : Byte) : (s.memWrite a b).pc = s.pc := rfl
@[simp] theorem State.memWrite_stack (s : State) (a : Word) (b : Byte) : (s.memWrite a b).stack = s.stack := rfl
@[simp] theorem State.memWrite_sp (s : State) (a : Word) (b : Byte) : (s.memWrite a b).sp = s.sp := rfl
@[simp] theorem State.memWrite_dt (s : State) (a : Word) (b : Byte) : (s.memWrite a b).dt = s.dt := rfl
@[simp] theorem State.memWrite_st (s : State) (a : Word) (b : Byte) : (s.memWrite a b).st = s.st := rfl
@[simp] theorem State.memWrite_mem (s : State) (a : Word) (b : Byte) : (s.memWrite a b).mem = Memory.write s.mem (memIndex a) b := rfl
@[simp] theorem State.memWrite_disp (s : State) (a : Word) (b : Byte) : (s.memWrite a b).disp = s.disp := rfl
@[simp] theorem State.memWrite_key (s : State) (a : Word) (b : Byte) : (s.memWrite a b).key = s.key := rfl
@[simp] theorem State.memWrite_dirty (s : State) (a : Word) (b : Byte) : (s.memWrite a b).dirty = s.dirty := rfl
@[simp] theorem State.memWrite_halted (s : State) (a : Word) (b : Byte) : (s.memWrite a b).halted = s.halted := rfl
@[simp] theorem State.memWrite_err (s : State) (a : Word) (b : Byte) : (s.memWrite a b).err = s.err := rfl
@[simp] theorem State.memWrite_draws (s : State) (a : Word) (b : Byte) : (s.memWrite a b).draws = s.draws := rfl

/-! ### setDisp -/

@[simp] theorem State.setDisp_v (s : State) (d : Grid) : (s.setDisp d).v = s.v := rfl
@[simp] theorem State.setDisp_i (s : State) (d : Grid) : (s.setDisp d).i = s.i := rfl
@[simp] theorem State.setDisp_pc (s : State) (d : Grid) : (s.setDisp d).pc = s.pc := rfl
@[simp] theorem State.setDisp_stack (s : State) (d : Grid) : (s.setDisp d).stack = s.stack := rfl
@[simp] theorem State.setDisp_sp (s : State) (d : Grid) : (s.setDisp d).sp = s.sp := rfl
@[simp] theorem State.setDisp_dt (s : State) (d : Grid) : (s.setDisp d).dt = s.dt := rfl
@[simp] theorem State.setDisp_st (s : State) (d : Grid) : (s.setDisp d).st = s.st := rfl
@[simp] theorem State.setDisp_mem (s : State) (d : Grid) : (s.setDisp d).mem = s.mem := rfl
@[simp] theorem State.setDisp_disp (s : State) (d : Grid) : (s.setDisp d).disp = d := rfl
@[simp] theorem State.setDisp_key (s : State) (d : Grid) : (s.setDisp d).key = s.key := rfl
@[simp] theorem State.setDisp_dirty (s : State) (d : Grid) : (s.setDisp d).dirty = true := rfl
@[simp] theorem State.setDisp_halted (s : State) (d : Grid) : (s.setDisp d).halted = s.halted := rfl
@[simp] theorem State.setDisp_err (s : State) (d : Grid) : (s.setDisp d).err = s.err := rfl
@[simp] theorem State.setDisp_draws (s : State) (d : Grid) : (s.setDisp d).draws = s.draws := rfl

/-! ### report -/

@[simp] theorem State.report_v (s : State) (c : ErrCause) (w a : Word) : (s.report c w a).v = s.v := rfl
@[simp] theorem State.report_i (s : State) (c : ErrCause) (w a : Word) : (s.report c w a).i = s.i := rfl
@[simp] theorem State.report_pc (s : State) (c : ErrCause) (w a : Word) : (s.report c w a).pc = s.pc := rfl
@[simp] theorem State.report_stack (s : State) (c : ErrCause) (w a : Word) : (s.report c w a).stack = s.stack := rfl
@[simp] theorem State.report_sp (s : State) (c : ErrCause) (w a : Word) : (s.report c w a).sp = s.sp := rfl
@[simp] theorem State.report_dt (s : State) (c : ErrCause) (w a : Word) : (s.report c w a).dt = s.dt := rfl
@[simp] theorem State.report_st (s : State) (c : ErrCause) (w a : Word) : (s.report c w a).st = s.st := rfl
@[simp] theorem State.report_mem (s : State) (c : ErrCause) (w a : Word) : (s.report c w a).mem = s.mem := rfl
@[simp] theorem State.report_disp (s : State) (c : ErrCause) (w a : Word) : (s.report c w a).disp = s.disp := rfl
@[simp] theorem State.report_key (s : State) (c : ErrCause) (w a : Word) : (s.report c w a).key = s.key := rfl
@[simp] theorem State.report_dirty (s : State) (c : ErrCause) (w a : Word) : (s.report c w a).dirty = s.dirty := rfl
@[simp] theorem State.report_halted (s : State) (c : ErrCause) (w a : Word) : (s.report c w a).halted = s.halted := rfl
@[simp] theorem State.report_err (s : State) (c : ErrCause) (w a : Word) : (s.report c w a).err = ⟨c, w, a⟩ := rfl
@[simp] theorem State.report_draws (s : State) (c : ErrCause) (w a : Word) : (s.report c w a).draws = s.draws := rfl

/-! ### raise -/

@[simp] theorem State.raise_v (s : State) (c : ErrCause) (w a : Word) : (s.raise c w a).v = s.v := rfl
@[simp] theorem State.raise_i (s : State) (c : ErrCause) (w a : Word) : (s.raise c w a).i = s.i := rfl
@[simp] theorem State.raise_pc (s : State) (c : ErrCause) (w a : Word) : (s.raise c w a).pc = s.pc := rfl
@[simp] theorem State.raise_stack (s : State) (c : ErrCause) (w a : Word) : (s.raise c w a).stack = s.stack := rfl
@[simp] theorem State.raise_sp (s : State) (c : ErrCause) (w a : Word) : (s.raise c w a).sp = s.sp := rfl
@[simp] theorem State.raise_dt (s : State) (c : ErrCause) (w a : Word) : (s.raise c w a).dt = s.dt := rfl
@[simp] theorem State.raise_st (s : State) (c : ErrCause) (w a : Word) : (s.raise c w a).st = s.st := rfl
@[simp] theorem State.raise_mem (s : State) (c : ErrCause) (w a : Word) : (s.raise c w a).mem = s.mem := rfl
@[simp] theorem State.raise_disp (s : State) (c : ErrCause) (w a : Word) : (s.raise c w a).disp = s.disp := rfl
@[simp] theorem State.raise_key (s : State) (c : ErrCause) (w a : Word) : (s.raise c w a).key = s.key := rfl
@[simp] theorem State.raise_dirty (s : State) (c : ErrCause) (w a : Word) : (s.raise c w a).dirty = s.dirty := rfl
@[simp] theorem State.raise_halted (s : State) (c : ErrCause) (w a : Word) : (s.raise c w a).halted = true := rfl
@[simp] theorem State.raise_err (s : State) (c : ErrCause) (w a : Word) : (s.raise c w a).err = ⟨c, w, a⟩ := rfl
@[simp] theorem State.raise_draws (s : State) (c : ErrCause) (w a : Word) : (s.raise c w a).draws = s.draws := rfl

/-! ### setVF -/

@[simp] theorem State.setVF_v (s : State) (f : Bool) : (s.setVF f).v = s.v.set regF (flagByte f) := rfl
@[simp] theorem State.setVF_i (s : State) (f : Bool) : (s.setVF f).i = s.i := rfl
@[simp] theorem State.setVF_pc (s : State) (f : Bool) : (s.setVF f).pc = s.pc := rfl
@[simp] theorem State.setVF_stack (s : State) (f : Bool) : (s.setVF f).stack = s.stack := rfl
@[simp] theorem State.setVF_sp (s : State) (f : Bool) : (s.setVF f).sp = s.sp := rfl
@[simp] theorem State.setVF_dt (s : State) (f : Bool) : (s.setVF f).dt = s.dt := rfl
@[simp] theorem State.setVF_st (s : State) (f : Bool) : (s.setVF f).st = s.st := rfl
@[simp] theorem State.setVF_mem (s : State) (f : Bool) : (s.setVF f).mem = s.mem := rfl
@[simp] theorem State.setVF_disp (s : State) (f : Bool) : (s.setVF f).disp = s.disp := rfl
@[simp] theorem State.setVF_key (s : State) (f : Bool) : (s.setVF f).key = s.key := rfl
@[simp] theorem State.setVF_dirty (s : State) (f : Bool) : (s.setVF f).dirty = s.dirty := rfl
@[simp] theorem State.setVF_halted (s : State) (f : Bool) : (s.setVF f).halted = s.halted := rfl
@[simp] theorem State.setVF_err (s : State) (f : Bool) : (s.setVF f).err = s.err := rfl
@[simp] theorem State.setVF_draws (s : State) (f : Bool) : (s.setVF f).draws = s.draws := rfl

/-! ### advance -/

@[simp] theorem State.advance_v (s : State) : (s.advance).v = s.v := rfl
@[simp] theorem State.advance_i (s : State) : (s.advance).i = s.i := rfl
@[simp] theorem State.advance_pc (s : State) : (s.advance).pc = s.pc + 2 := rfl
@[simp] theorem State.advance_stack (s : State) : (s.advance).stack = s.stack := rfl
@[simp] theorem State.advance_sp (s : State) : (s.advance).sp = s.sp := rfl
@[simp] theorem State.advance_dt (s : State) : (s.advance).dt = s.dt := rfl
@[simp] theorem State.advance_st (s : State) : (s.advance).st = s.st := rfl
@[simp] theorem State.advance_mem (s : State) : (s.advance).mem = s.mem := rfl
@[simp] theorem State.advance_disp (s : State) : (s.advance).disp = s.disp := rfl
@[simp] theorem State.advance_key (s : State) : (s.advance).key = s.key := rfl
@[simp] theorem State.advance_dirty (s : State) : (s.advance).dirty = s.dirty := rfl
@[simp] theorem State.advance_halted (s : State) : (s.advance).halted = s.halted := rfl
@[simp] theorem State.advance_err (s : State) : (s.advance).err = s.err := rfl
@[simp] theorem State.advance_draws (s : State) : (s.advance).draws = s.draws := rfl

/-! ### tick -/

@[simp] theorem State.tick_v (s : State) : (s.tick).v = s.v := rfl
@[simp] theorem State.tick_i (s : State) : (s.tick).i = s.i := rfl
@[simp] theorem State.tick_pc (s : State) : (s.tick).pc = s.pc := rfl
@[simp] theorem State.tick_stack (s : State) : (s.tick).stack = s.stack := rfl
@[simp] theorem State.tick_sp (s : State) : (s.tick).sp = s.sp := rfl
@[simp] theorem State.tick_dt (s : State) : (s.tick).dt = tickDown s.dt := rfl
@[simp] theorem State.tick_st (s : State) : (s.tick).st = tickDown s.st := rfl
@[simp] theorem State.tick_mem (s : State) : (s.tick).mem = s.mem := rfl
@[simp] theorem State.tick_disp (s : State) : (s.tick).disp = s.disp := rfl
@[simp] theorem State.tick_key (s : State) : (s.tick).key = s.key := rfl
@[simp] theorem State.tick_dirty (s : State) : (s.tick).dirty = s.dirty := rfl
@[simp] theorem State.tick_halted (s : State) : (s.tick).halted = s.halted := rfl
@[simp] theorem State.tick_err (s : State) : (s.tick).err = s.err := rfl
@[simp] theorem State.tick_draws (s : State) : (s.tick).draws = s.draws := rfl

/-! ### keySet -/

@[simp] theorem State.keySet_v (s : State) (k : Fin Config.nKeys) (b : Bool) : (s.keySet k b).v = s.v := rfl
@[simp] theorem State.keySet_i (s : State) (k : Fin Config.nKeys) (b : Bool) : (s.keySet k b).i = s.i := rfl
@[simp] theorem State.keySet_pc (s : State) (k : Fin Config.nKeys) (b : Bool) : (s.keySet k b).pc = s.pc := rfl
@[simp] theorem State.keySet_stack (s : State) (k : Fin Config.nKeys) (b : Bool) : (s.keySet k b).stack = s.stack := rfl
@[simp] theorem State.keySet_sp (s : State) (k : Fin Config.nKeys) (b : Bool) : (s.keySet k b).sp = s.sp := rfl
@[simp] theorem State.keySet_dt (s : State) (k : Fin Config.nKeys) (b : Bool) : (s.keySet k b).dt = s.dt := rfl
@[simp] theorem State.keySet_st (s : State) (k : Fin Config.nKeys) (b : Bool) : (s.keySet k b).st = s.st := rfl
@[simp] theorem State.keySet_mem (s : State) (k : Fin Config.nKeys) (b : Bool) : (s.keySet k b).mem = s.mem := rfl
@[simp] theorem State.keySet_disp (s : State) (k : Fin Config.nKeys) (b : Bool) : (s.keySet k b).disp = s.disp := rfl
@[simp] theorem State.keySet_key (s : State) (k : Fin Config.nKeys) (b : Bool) : (s.keySet k b).key = s.key.set k b := rfl
@[simp] theorem State.keySet_dirty (s : State) (k : Fin Config.nKeys) (b : Bool) : (s.keySet k b).dirty = s.dirty := rfl
@[simp] theorem State.keySet_halted (s : State) (k : Fin Config.nKeys) (b : Bool) : (s.keySet k b).halted = s.halted := rfl
@[simp] theorem State.keySet_err (s : State) (k : Fin Config.nKeys) (b : Bool) : (s.keySet k b).err = s.err := rfl
@[simp] theorem State.keySet_draws (s : State) (k : Fin Config.nKeys) (b : Bool) : (s.keySet k b).draws = s.draws := rfl

/-! ### frameAck -/

@[simp] theorem State.frameAck_v (s : State) : (s.frameAck).v = s.v := rfl
@[simp] theorem State.frameAck_i (s : State) : (s.frameAck).i = s.i := rfl
@[simp] theorem State.frameAck_pc (s : State) : (s.frameAck).pc = s.pc := rfl
@[simp] theorem State.frameAck_stack (s : State) : (s.frameAck).stack = s.stack := rfl
@[simp] theorem State.frameAck_sp (s : State) : (s.frameAck).sp = s.sp := rfl
@[simp] theorem State.frameAck_dt (s : State) : (s.frameAck).dt = s.dt := rfl
@[simp] theorem State.frameAck_st (s : State) : (s.frameAck).st = s.st := rfl
@[simp] theorem State.frameAck_mem (s : State) : (s.frameAck).mem = s.mem := rfl
@[simp] theorem State.frameAck_disp (s : State) : (s.frameAck).disp = s.disp := rfl
@[simp] theorem State.frameAck_key (s : State) : (s.frameAck).key = s.key := rfl
@[simp] theorem State.frameAck_dirty (s : State) : (s.frameAck).dirty = false := rfl
@[simp] theorem State.frameAck_halted (s : State) : (s.frameAck).halted = s.halted := rfl
@[simp] theorem State.frameAck_err (s : State) : (s.frameAck).err = s.err := rfl
@[simp] theorem State.frameAck_draws (s : State) : (s.frameAck).draws = s.draws := rfl

/-! ### rndWith -/

@[simp] theorem rndWith_v (r : Byte) (x : Reg) (nn : Byte) (s : State) : (rndWith r x nn s).v = s.v.set x (r &&& nn) := rfl
@[simp] theorem rndWith_i (r : Byte) (x : Reg) (nn : Byte) (s : State) : (rndWith r x nn s).i = s.i := rfl
@[simp] theorem rndWith_pc (r : Byte) (x : Reg) (nn : Byte) (s : State) : (rndWith r x nn s).pc = s.pc := rfl
@[simp] theorem rndWith_stack (r : Byte) (x : Reg) (nn : Byte) (s : State) : (rndWith r x nn s).stack = s.stack := rfl
@[simp] theorem rndWith_sp (r : Byte) (x : Reg) (nn : Byte) (s : State) : (rndWith r x nn s).sp = s.sp := rfl
@[simp] theorem rndWith_dt (r : Byte) (x : Reg) (nn : Byte) (s : State) : (rndWith r x nn s).dt = s.dt := rfl
@[simp] theorem rndWith_st (r : Byte) (x : Reg) (nn : Byte) (s : State) : (rndWith r x nn s).st = s.st := rfl
@[simp] theorem rndWith_mem (r : Byte) (x : Reg) (nn : Byte) (s : State) : (rndWith r x nn s).mem = s.mem := rfl
@[simp] theorem rndWith_disp (r : Byte) (x : Reg) (nn : Byte) (s : State) : (rndWith r x nn s).disp = s.disp := rfl
@[simp] theorem rndWith_key (r : Byte) (x : Reg) (nn : Byte) (s : State) : (rndWith r x nn s).key = s.key := rfl
@[simp] theorem rndWith_dirty (r : Byte) (x : Reg) (nn : Byte) (s : State) : (rndWith r x nn s).dirty = s.dirty := rfl
@[simp] theorem rndWith_halted (r : Byte) (x : Reg) (nn : Byte) (s : State) : (rndWith r x nn s).halted = s.halted := rfl
@[simp] theorem rndWith_err (r : Byte) (x : Reg) (nn : Byte) (s : State) : (rndWith r x nn s).err = s.err := rfl
@[simp] theorem rndWith_draws (r : Byte) (x : Reg) (nn : Byte) (s : State) : (rndWith r x nn s).draws = s.draws + 1 := rfl

/-! ### skipIf -/

@[simp] theorem State.skipIf_v (s : State) (c : Bool) : (s.skipIf c).v = s.v := by cases c <;> rfl
@[simp] theorem State.skipIf_i (s : State) (c : Bool) : (s.skipIf c).i = s.i := by cases c <;> rfl
@[simp] theorem State.skipIf_pc (s : State) (c : Bool) : (s.skipIf c).pc = if c then s.pc + 2 else s.pc := by cases c <;> rfl
@[simp] theorem State.skipIf_stack (s : State) (c : Bool) : (s.skipIf c).stack = s.stack := by cases c <;> rfl
@[simp] theorem State.skipIf_sp (s : State) (c : Bool) : (s.skipIf c).sp = s.sp := by cases c <;> rfl
@[simp] theorem State.skipIf_dt (s : State) (c : Bool) : (s.skipIf c).dt = s.dt := by cases c <;> rfl
@[simp] theorem State.skipIf_st (s : State) (c : Bool) : (s.skipIf c).st = s.st := by cases c <;> rfl
@[simp] theorem State.skipIf_mem (s : State) (c : Bool) : (s.skipIf c).mem = s.mem := by cases c <;> rfl
@[simp] theorem State.skipIf_disp (s : State) (c : Bool) : (s.skipIf c).disp = s.disp := by cases c <;> rfl
@[simp] theorem State.skipIf_key (s : State) (c : Bool) : (s.skipIf c).key = s.key := by cases c <;> rfl
@[simp] theorem State.skipIf_dirty (s : State) (c : Bool) : (s.skipIf c).dirty = s.dirty := by cases c <;> rfl
@[simp] theorem State.skipIf_halted (s : State) (c : Bool) : (s.skipIf c).halted = s.halted := by cases c <;> rfl
@[simp] theorem State.skipIf_err (s : State) (c : Bool) : (s.skipIf c).err = s.err := by cases c <;> rfl
@[simp] theorem State.skipIf_draws (s : State) (c : Bool) : (s.skipIf c).draws = s.draws := by cases c <;> rfl

/-! ### memWriteList: only memory changes -/

@[simp] theorem State.memWriteList_v (s : State) (a : Word) (bs : List Byte) : (s.memWriteList a bs).v = s.v := by
  induction bs generalizing s a with
  | nil => rfl
  | cons b bs ih => exact ih _ _
@[simp] theorem State.memWriteList_i (s : State) (a : Word) (bs : List Byte) : (s.memWriteList a bs).i = s.i := by
  induction bs generalizing s a with
  | nil => rfl
  | cons b bs ih => exact ih _ _
@[simp] theorem State.memWriteList_pc (s : State) (a : Word) (bs : List Byte) : (s.memWriteList a bs).pc = s.pc := by
  induction bs generalizing s a with
  | nil => rfl
  | cons b bs ih => exact ih _ _
@[simp] theorem State.memWriteList_stack (s : State) (a : Word) (bs : List Byte) : (s.memWriteList a bs).stack = s.stack := by
  induction bs generalizing s a with
  | nil => rfl
  | cons b bs ih => exact ih _ _
@[simp] theorem State.memWriteList_sp (s : State) (a : Word) (bs : List Byte) : (s.memWriteList a bs).sp = s.sp := by
  induction bs generalizing s a with
  | nil => rfl
  | cons b bs ih => exact ih _ _
@[simp] theorem State.memWriteList_dt (s : State) (a : Word) (bs : List Byte) : (s.memWriteList a bs).dt = s.dt := by
  induction bs generalizing s a with
  | nil => rfl
  | cons b bs ih => exact ih _ _
@[simp] theorem State.memWriteList_st (s : State) (a : Word) (bs : List Byte) : (s.memWriteList a bs).st = s.st := by
  induction bs generalizing s a with
  | nil => rfl
  | cons b bs ih => exact ih _ _
@[simp] theorem State.memWriteList_disp (s : State) (a : Word) (bs : List Byte) : (s.memWriteList a bs).disp = s.disp := by
  induction bs generalizing s a with
  | nil => rfl
  | cons b bs ih => exact ih _ _
@[simp] theorem State.memWriteList_key (s : State) (a : Word) (bs : List Byte) : (s.memWriteList a bs).key = s.key := by
  induction bs generalizing s a with
  | nil => rfl
  | cons b bs ih => exact ih _ _
@[simp] theorem State.memWriteList_dirty (s : State) (a : Word) (bs : List Byte) : (s.memWriteList a bs).dirty = s.dirty := by
  induction bs generalizing s a with
  | nil => rfl
  | cons b bs ih => exact ih _ _
@[simp] theorem State.memWriteList_halted (s : State) (a : Word) (bs : List Byte) : (s.memWriteList a bs).halted = s.halted := by
  induction bs generalizing s a with
  | nil => rfl
  | cons b bs ih => exact ih _ _
@[simp] theorem State.memWriteList_err (s : State) (a : Word) (bs : List Byte) : (s.memWriteList a bs).err = s.err := by
  induction bs generalizing s a with
  | nil => rfl
  | cons b bs ih => exact ih _ _
@[simp] theorem State.memWriteList_draws (s : State) (a : Word) (bs : List Byte) : (s.memWriteList a bs).draws = s.draws := by
  induction bs generalizing s a with
  | nil => rfl
  | cons b bs ih => exact ih _ _

/-! ### setRegList: only the registers change -/

@[simp] theorem State.setRegList_i (s : State) (k : Nat) (bs : List Byte) : (s.setRegList k bs).i = s.i := by
  induction bs generalizing s k with
  | nil => rfl
  | cons b bs ih => rw [State.setRegList, ih]; split <;> rfl
@[simp] theorem State.setRegList_pc (s : State) (k : Nat) (bs : List Byte) : (s.setRegList k bs).pc = s.pc := by
  induction bs generalizing s k with
  | nil => rfl
  | cons b bs ih => rw [State.setRegList, ih]; split <;> rfl
@[simp] theorem State.setRegList_stack (s : State) (k : Nat) (bs : List Byte) : (s.setRegList k bs).stack = s.stack := by
  induction bs generalizing s k with
  | nil => rfl
  | cons b bs ih => rw [State.setRegList, ih]; split <;> rfl
@[simp] theorem State.setRegList_sp (s : State) (k : Nat) (bs : List Byte) : (s.setRegList k bs).sp = s.sp := by
  induction bs generalizing s k with
  | nil => rfl
  | cons b bs ih => rw [State.setRegList, ih]; split <;> rfl
@[simp] theorem State.setRegList_dt (s : State) (k : Nat) (bs : List Byte) : (s.setRegList k bs).dt = s.dt := by
  induction bs generalizing s k with
  | nil => rfl
  | cons b bs ih => rw [State.setRegList, ih]; split <;> rfl
@[simp] theorem State.setRegList_st (s : State) (k : Nat) (bs : List Byte) : (s.setRegList k bs).st = s.st := by
  induction bs generalizing s k with
  | nil => rfl
  | cons b bs ih => rw [State.setRegList, ih]; split <;> rfl
@[simp] theorem State.setRegList_mem (s : State) (k : Nat) (bs : List Byte) : (s.setRegList k bs).mem = s.mem := by
  induction bs generalizing s k with
  | nil => rfl
  | cons b bs ih => rw [State.setRegList, ih]; split <;> rfl
@[simp] theorem State.setRegList_disp (s : State) (k : Nat) (bs : List Byte) : (s.setRegList k bs).disp = s.disp := by
  induction bs generalizing s k with
  | nil => rfl
  | cons b bs ih => rw [State.setRegList, ih]; split <;> rfl
@[simp] theorem State.setRegList_key (s : State) (k : Nat) (bs : List Byte) : (s.setRegList k bs).key = s.key := by
  induction bs generalizing s k with
  | nil => rfl
  | cons b bs ih => rw [State.setRegList, ih]; split <;> rfl
@[simp] theorem State.setRegList_dirty (s : State) (k : Nat) (bs : List Byte) : (s.setRegList k bs).dirty = s.dirty := by
  induction bs generalizing s k with
  | nil => rfl
  | cons b bs ih => rw [State.setRegList, ih]; split <;> rfl
@[simp] theorem State.setRegList_halted (s : State) (k : Nat) (bs : List Byte) : (s.setRegList k bs).halted = s.halted := by
  induction bs generalizing s k with
  | nil => rfl
  | cons b bs ih => rw [State.setRegList, ih]; split <;> rfl
@[simp] theorem State.setRegList_err (s : State) (k : Nat) (bs : List Byte) : (s.setRegList k bs).err = s.err := by
  induction bs generalizing s k with
  | nil => rfl
  | cons b bs ih => rw [State.setRegList, ih]; split <;> rfl
@[simp] theorem State.setRegList_draws (s : State) (k : Nat) (bs : List Byte) : (s.setRegList k bs).draws = s.draws := by
  induction bs generalizing s k with
  | nil => rfl
  | cons b bs ih => rw [State.setRegList, ih]; split <;> rfl
/-! ### Reads -/

@[simp] theorem State.reg_setReg_same (s : State) (x : Reg) (b : Byte) : (s.setReg x b).reg x = b := by
  simp [State.reg]

theorem State.reg_setReg_other (s : State) {x r : Reg} (b : Byte) (h : r ≠ x) : (s.setReg x b).reg r = s.reg r := by
  have : x.val ≠ r.val := fun e => h (Fin.ext e.symm)
  simp [State.reg, this]

theorem State.reg_setReg (s : State) (x r : Reg) (b : Byte) : (s.setReg x b).reg r = if r = x then b else s.reg r := by
  split
  · next h => subst h; simp
  · next h => exact s.reg_setReg_other b h

theorem State.reg_setVF (s : State) (r : Reg) (f : Bool) : (s.setVF f).reg r = if r = regF then flagByte f else s.reg r :=
  s.reg_setReg regF r (flagByte f)

theorem State.reg_rndWith (s : State) (r : Byte) (x q : Reg) (nn : Byte) :
    (rndWith r x nn s).reg q = if q = x then r &&& nn else s.reg q :=
  s.reg_setReg x q (r &&& nn)

/-- Two states with the same registers read the same. -/
theorem State.reg_of_v {s t : State} (h : t.v = s.v) (r : Reg) : t.reg r = s.reg r := by simp [State.reg, h]

/-- Two states with the same memory read the same. -/
theorem State.memRead_of_mem {s t : State} (h : t.mem = s.mem) (a : Word) : t.memRead a = s.memRead a := by
  simp [State.memRead, h]

/-- Two states with the same display show the same pixels. -/
theorem State.pixel_of_disp {s t : State} (h : t.disp = s.disp) (row col) : t.pixel row col = s.pixel row col := by
  simp [State.pixel, h]

/-- Two states with the same latch hold the same keys. -/
theorem State.keyHeld_of_key {s t : State} (h : t.key = s.key) (k) : t.keyHeld k = s.keyHeld k := by
  simp [State.keyHeld, h]

theorem State.keyHeld_keySet (s : State) (k j : Fin Config.nKeys) (b : Bool) :
    (s.keySet k b).keyHeld j = if j = k then b else s.keyHeld j := by
  split
  · next h => subst h; simp [State.keyHeld]
  · next h =>
    have : k.val ≠ j.val := fun e => h (Fin.ext e.symm)
    simp [State.keyHeld, this]

/-! ### The frame -/

/-- A frame from the equality of the fields: the way every frame is shown. A listed part needs no equality. -/
theorem sameBut_of_fields {ps : List Part} {s t : State}
    (v : Part.v ∉ ps → t.v = s.v) (i : Part.i ∉ ps → t.i = s.i) (pc : Part.pc ∉ ps → t.pc = s.pc)
    (stack : Part.stack ∉ ps → t.stack = s.stack) (sp : Part.stack ∉ ps → t.sp = s.sp)
    (dt : Part.dt ∉ ps → t.dt = s.dt) (st : Part.st ∉ ps → t.st = s.st) (mem : Part.mem ∉ ps → t.mem = s.mem)
    (disp : Part.disp ∉ ps → t.disp = s.disp) (key : Part.key ∉ ps → t.key = s.key)
    (dirty : Part.dirty ∉ ps → t.dirty = s.dirty) (halted : Part.halted ∉ ps → t.halted = s.halted)
    (err : Part.err ∉ ps → t.err = s.err) (draws : Part.draws ∉ ps → t.draws = s.draws) : SameBut ps s t := by
  intro p hp
  cases p
  case v => exact State.reg_of_v (v hp)
  case i => exact i hp
  case pc => exact pc hp
  case stack => exact ⟨stack hp, sp hp⟩
  case dt => exact dt hp
  case st => exact st hp
  case mem => exact State.memRead_of_mem (mem hp)
  case disp => exact State.pixel_of_disp (disp hp)
  case key => exact State.keyHeld_of_key (key hp)
  case dirty => exact dirty hp
  case halted => exact halted hp
  case err => exact err hp
  case draws => exact draws hp

/-- A frame may be read with more parts listed. -/
theorem SameBut.weaken {ps qs : List Part} {s t : State} (h : SameBut ps s t) (hpq : ps ⊆ qs) : SameBut qs s t :=
  fun p hp => h p fun hp' => hp (hpq hp')

/-- A state agrees with itself on every part. -/
@[simp] theorem Part.same_refl (p : Part) (s : State) : p.Same s s := by cases p <;> simp [Part.Same]

theorem SameBut.refl (ps : List Part) (s : State) : SameBut ps s s := fun p _ => p.same_refl s

/-- Two frames one after the other. -/
theorem SameBut.trans {ps : List Part} {s t u : State} (h : SameBut ps s t) (g : SameBut ps t u) : SameBut ps s u := by
  intro p hp
  have a := h p hp
  have b := g p hp
  cases p <;> simp_all [Part.Same]

end Sys2Proof.Machine
end

