-- ==== Sys2Proof/Laws/Registers.lean ====
section
/-! SUPPORT. The laws of the register list of Fx55 and Fx65, of the memory operand and of the least held key. -/

namespace Sys2Proof.Machine

@[simp] theorem State.length_operandBytes (s : State) (n : Nat) : (s.operandBytes n).length = n := by
  simp [State.operandBytes]

@[simp] theorem State.getElem_operandBytes (s : State) (n k : Nat) (h : k < (s.operandBytes n).length) :
    (s.operandBytes n)[k] = s.memRead (s.i + BitVec.ofNat 16 k) := by
  simp [State.operandBytes, State.effAddr]

@[simp] theorem State.length_regList (s : State) (x : Reg) : (s.regList x).length = x.val + 1 := by
  simp [State.regList]

@[simp] theorem State.getElem_regList (s : State) (x : Reg) (k : Nat) (h : k < (s.regList x).length) :
    (s.regList x)[k] = s.reg ⟨k, by simp at h; omega⟩ := by
  simp [State.regList, State.reg]

/-- What every register holds after a list is written from `V[k]` on. -/
theorem State.reg_setRegList (s : State) (k : Nat) (bs : List Byte) (r : Reg) :
    (s.setRegList k bs).reg r =
      if h : k ≤ r.val ∧ r.val - k < bs.length then bs[r.val - k]'h.2 else s.reg r := by
  induction bs generalizing s k with
  | nil => simp [State.setRegList]
  | cons b bs ih =>
    have hr := r.isLt
    rw [State.setRegList, ih]
    by_cases h1 : k + 1 ≤ r.val ∧ r.val - (k + 1) < bs.length
    · rw [dif_pos h1, dif_pos ⟨by omega, by simp; omega⟩]
      have e : r.val - k = (r.val - (k + 1)) + 1 := by omega
      simp [e]
    · rw [dif_neg h1]
      by_cases h2 : k = r.val
      · subst h2
        rw [dif_pos hr, State.reg_setReg, if_pos rfl, dif_pos ⟨le_refl _, by simp⟩]
        simp
      · have h3 : ¬ (k ≤ r.val ∧ r.val - k < (b :: bs).length) := by
          simp only [List.length_cons]; omega
        rw [dif_neg h3]
        split
        · exact State.reg_setReg_other _ _ fun e => h2 (by rw [e])
        · rfl

/-- No key is found exactly when none is held. -/
theorem State.leastKey?_eq_none {s : State} : s.leastKey? = none ↔ ∀ k, s.keyHeld k = false := by
  simp [State.leastKey?]

/-- The key that is found is held and no lesser key is. -/
theorem State.leastKey?_eq_some {s : State} {k : Fin Config.nKeys} (h : s.leastKey? = some k) :
    s.keyHeld k = true ∧ ∀ j < k, s.keyHeld j = false := by
  unfold State.leastKey? at h
  rw [List.find?_eq_some_iff_getElem] at h
  obtain ⟨hk, i, hi, he, hlt⟩ := h
  refine ⟨hk, fun j hj => ?_⟩
  simp only [List.getElem_finRange] at he hlt
  have hji : j.val < i := by
    have : k.val = i := by rw [← he]; simp
    omega
  have := hlt j.val hji
  simpa using this

/-- The least held key is found. -/
theorem State.leastKey?_of_least {s : State} {k : Fin Config.nKeys} (hk : s.keyHeld k = true)
    (hlt : ∀ j < k, s.keyHeld j = false) : s.leastKey? = some k := by
  cases h : s.leastKey? with
  | none => rw [State.leastKey?_eq_none] at h; exact absurd hk (by simp [h k])
  | some j =>
    obtain ⟨hj, hjlt⟩ := State.leastKey?_eq_some h
    rcases lt_trichotomy j k with h1 | h1 | h1
    · exact absurd hj (by simp [hlt j h1])
    · rw [h1]
    · exact absurd hk (by simp [hjlt k h1])

/-- A write of a register list depends on the registers of a state alone. -/
theorem State.setRegList_congr {s t : State} (h : t.v = s.v) (k : Nat) (bs : List Byte) :
    (t.setRegList k bs).v = (s.setRegList k bs).v := by
  induction bs generalizing s t k with
  | nil => exact h
  | cons b bs ih => exact ih (by split <;> simp [h]) _

end Sys2Proof.Machine
end

