-- ==== Sys2Proof/Laws/Display.lean ====
section
/-! SUPPORT. The laws of the display: a flip of one pixel, and in closed form what a draw does to every pixel and when it reports a collision (rules R161, R162). -/

namespace Sys2Proof.Machine

theorem Grid.get_flip_same (d : Grid) (row : Fin Config.dispH) (col : Fin Config.dispW) :
    Grid.get (Grid.flip d row col) row col = !Grid.get d row col := by
  simp [Grid.get, Grid.flip]

theorem Grid.get_flip_other (d : Grid) {row row' : Fin Config.dispH} {col col' : Fin Config.dispW}
    (h : ¬ (row' = row ∧ col' = col)) : Grid.get (Grid.flip d row col) row' col' = Grid.get d row' col' := by
  by_cases hr : row' = row
  · subst hr
    have hc : col.val ≠ col'.val := fun e => h ⟨rfl, Fin.ext e.symm⟩
    simp [Grid.get, Grid.flip, hc]
  · have hr' : row.val ≠ row'.val := fun e => hr (Fin.ext e.symm)
    simp [Grid.get, Grid.flip, hr']

theorem Grid.get_clear (row : Fin Config.dispH) (col : Fin Config.dispW) : Grid.get Grid.clear row col = false := by
  simp [Grid.get, Grid.clear]

/-- Two grids with the same pixels are the same grid. -/
theorem Grid.ext_of_get {d e : Grid} (h : ∀ row col, Grid.get d row col = Grid.get e row col) : d = e := by
  apply Vector.ext
  intro r hr
  apply Vector.ext
  intro c hc
  exact h ⟨r, hr⟩ ⟨c, hc⟩

theorem rowOf_ne {y j k : Nat} (hjk : j < k) (hk : k < j + 32) : rowOf (y + j) ≠ rowOf (y + k) := by
  intro e
  have := congrArg Fin.val e
  simp only [rowOf, Config.dispH] at this
  omega

theorem colOf_ne {x j k : Nat} (hjk : j < k) (hk : k < j + 64) : colOf (x + j) ≠ colOf (x + k) := by
  intro e
  have := congrArg Fin.val e
  simp only [colOf, Config.dispW] at this
  omega

/-- One row of a sprite, drawn through its first `m` columns, has a 1 bit on this column. -/
def rowLands (b : Byte) (x0 m : Nat) (col : Fin Config.dispW) : Prop :=
  ∃ c, c < m ∧ spriteBit b c = true ∧ col = colOf (x0 + c)

theorem rowLands_succ {b : Byte} {x0 m : Nat} {col : Fin Config.dispW} :
    rowLands b x0 (m + 1) col ↔ rowLands b x0 m col ∨ (spriteBit b m = true ∧ col = colOf (x0 + m)) := by
  constructor
  · rintro ⟨c, hc, hb, he⟩
    rcases Nat.lt_succ_iff_lt_or_eq.mp hc with h | h
    · exact .inl ⟨c, h, hb, he⟩
    · subst h; exact .inr ⟨hb, he⟩
  · rintro (⟨c, hc, hb, he⟩ | ⟨hb, he⟩)
    · exact ⟨c, by omega, hb, he⟩
    · exact ⟨m, by omega, hb, he⟩

/-- The inner loop through its first `m` columns: the pixels it flips, and when `hit` is set. -/
theorem blitPixels_spec (b : Byte) (x0 : Nat) (row : Fin Config.dispH) (a : Grid × Bool) (m : Nat) (hm : m ≤ 8) :
    let out := (List.range m).foldl (blitPixel b x0 row) a
    (∀ row' col, (row' = row ∧ rowLands b x0 m col) → Grid.get out.1 row' col = !Grid.get a.1 row' col) ∧
    (∀ row' col, ¬ (row' = row ∧ rowLands b x0 m col) → Grid.get out.1 row' col = Grid.get a.1 row' col) ∧
    (out.2 = true ↔ a.2 = true ∨ ∃ col, rowLands b x0 m col ∧ Grid.get a.1 row col = true) := by
  induction m with
  | zero => simp [rowLands]
  | succ m ih =>
    obtain ⟨ih1, ih2, ih3⟩ := ih (by omega)
    rw [List.range_succ, List.foldl_append, List.foldl_cons, List.foldl_nil]
    generalize (List.range m).foldl (blitPixel b x0 row) a = out at ih1 ih2 ih3
    have hfresh : ¬ rowLands b x0 m (colOf (x0 + m)) := by
      rintro ⟨c, hc, -, he⟩
      exact colOf_ne (x := x0) (j := c) (k := m) hc (by omega) he.symm
    have hold : Grid.get out.1 row (colOf (x0 + m)) = Grid.get a.1 row (colOf (x0 + m)) :=
      ih2 _ _ fun h => hfresh h.2
    cases hb : spriteBit b m with
    | false =>
      have e : ∀ col, rowLands b x0 (m + 1) col ↔ rowLands b x0 m col := fun col => by
        rw [rowLands_succ]; simp [hb]
      simp only [blitPixel, hb, e]
      exact ⟨ih1, ih2, ih3⟩
    | true =>
      simp only [blitPixel, hb, if_true]
      refine ⟨?_, ?_, ?_⟩
      · rintro row' col ⟨hr, hl⟩
        subst hr
        by_cases hc : col = colOf (x0 + m)
        · subst hc; rw [Grid.get_flip_same, hold]
        · rw [Grid.get_flip_other _ fun h => hc h.2]
          rcases rowLands_succ.mp hl with h | h
          · exact ih1 _ _ ⟨rfl, h⟩
          · exact absurd h.2 hc
      · intro row' col hn
        have h1 : ¬ (row' = row ∧ col = colOf (x0 + m)) := fun h => hn ⟨h.1, rowLands_succ.mpr (.inr ⟨hb, h.2⟩)⟩
        rw [Grid.get_flip_other _ h1]
        exact ih2 _ _ fun h => hn ⟨h.1, rowLands_succ.mpr (.inl h.2)⟩
      · rw [Bool.or_eq_true, ih3, hold]
        constructor
        · rintro ((h | ⟨col, h, hg⟩) | h)
          · exact .inl h
          · exact .inr ⟨col, rowLands_succ.mpr (.inl h), hg⟩
          · exact .inr ⟨_, rowLands_succ.mpr (.inr ⟨hb, rfl⟩), h⟩
        · rintro (h | ⟨col, h, hg⟩)
          · exact .inl (.inl h)
          · rcases rowLands_succ.mp h with h | h
            · exact .inl (.inr ⟨col, h, hg⟩)
            · rw [h.2] at hg; exact .inr hg

/-- A list of sprite bytes drawn at `x0`, `y` has a 1 bit that lands on this pixel. -/
def bytesLand (x0 y : Nat) (bs : List Byte) (row : Fin Config.dispH) (col : Fin Config.dispW) : Prop :=
  ∃ r, ∃ h : r < bs.length, row = rowOf (y + r) ∧ rowLands bs[r] x0 8 col

theorem bytesLand_cons {x0 y : Nat} {b : Byte} {bs : List Byte} {row : Fin Config.dispH} {col : Fin Config.dispW} :
    bytesLand x0 y (b :: bs) row col ↔ (row = rowOf y ∧ rowLands b x0 8 col) ∨ bytesLand x0 (y + 1) bs row col := by
  constructor
  · rintro ⟨r, hr, he, hl⟩
    cases r with
    | zero => exact .inl ⟨he, hl⟩
    | succ r => exact .inr ⟨r, by simpa using hr, by rw [he]; congr 1; omega, hl⟩
  · rintro (⟨he, hl⟩ | ⟨r, hr, he, hl⟩)
    · exact ⟨0, by simp, he, hl⟩
    · exact ⟨r + 1, by simpa using hr, by rw [he]; congr 1; omega, hl⟩

/-- The whole blit of at most 32 rows: the pixels a 1 bit lands on are flipped, the others kept, and `hit` is set exactly
when one of them was on. -/
theorem blit_spec (x0 : Nat) (bs : List Byte) (hlen : bs.length ≤ 32) (y : Nat) (a : Grid × Bool) :
    (∀ row col, bytesLand x0 y bs row col → Grid.get (blit x0 y bs a).1 row col = !Grid.get a.1 row col) ∧
    (∀ row col, ¬ bytesLand x0 y bs row col → Grid.get (blit x0 y bs a).1 row col = Grid.get a.1 row col) ∧
    ((blit x0 y bs a).2 = true ↔ a.2 = true ∨ ∃ row col, bytesLand x0 y bs row col ∧ Grid.get a.1 row col = true) := by
  induction bs generalizing y a with
  | nil => simp [blit, bytesLand]
  | cons b bs ih =>
    have hlen' : bs.length + 1 ≤ 32 := by simpa using hlen
    obtain ⟨r1, r2, r3⟩ := blitPixels_spec b x0 (rowOf y) a 8 (le_refl _)
    obtain ⟨i1, i2, i3⟩ := ih (by omega) (y + 1) (blitRow b x0 (rowOf y) a)
    have hfresh : ∀ col, ¬ bytesLand x0 (y + 1) bs (rowOf y) col := by
      rintro col ⟨r, hr, he, -⟩
      refine rowOf_ne (y := y) (j := 0) (k := r + 1) (by omega) (by omega) ?_
      rw [Nat.add_zero, he]; congr 1; omega
    rw [blit]
    refine ⟨?_, ?_, ?_⟩
    · intro row col hl
      rcases bytesLand_cons.mp hl with h | h
      · have h' : ¬ bytesLand x0 (y + 1) bs row col := by rw [h.1]; exact hfresh col
        rw [i2 _ _ h']; exact r1 _ _ h
      · rw [i1 _ _ h]
        rw [show Grid.get (blitRow b x0 (rowOf y) a).1 row col = Grid.get a.1 row col from
          r2 _ _ fun h2 => hfresh col (h2.1 ▸ h)]
    · intro row col hn
      rw [i2 _ _ fun h => hn (bytesLand_cons.mpr (.inr h))]
      exact r2 _ _ fun h => hn (bytesLand_cons.mpr (.inl h))
    · rw [i3, show (blitRow b x0 (rowOf y) a).2 = true ↔ _ from r3]
      constructor
      · rintro ((h | ⟨col, h, hg⟩) | ⟨row, col, h, hg⟩)
        · exact .inl h
        · exact .inr ⟨_, col, bytesLand_cons.mpr (.inl ⟨rfl, h⟩), hg⟩
        · refine .inr ⟨row, col, bytesLand_cons.mpr (.inr h), ?_⟩
          rwa [show Grid.get (blitRow b x0 (rowOf y) a).1 row col = Grid.get a.1 row col from
            r2 _ _ fun h2 => hfresh col (h2.1 ▸ h)] at hg
      · rintro (h | ⟨row, col, h, hg⟩)
        · exact .inl (.inl h)
        · rcases bytesLand_cons.mp h with h | h
          · exact .inl (.inr ⟨col, h.2, h.1 ▸ hg⟩)
          · refine .inr ⟨row, col, h, ?_⟩
            rwa [show Grid.get (blitRow b x0 (rowOf y) a).1 row col = Grid.get a.1 row col from
              r2 _ _ fun h2 => hfresh col (h2.1 ▸ h)]

/-- The bytes of the memory operand land where `spriteLands` says. -/
theorem State.bytesLand_operandBytes (s : State) (x0 y0 n : Nat) (row : Fin Config.dispH) (col : Fin Config.dispW) :
    bytesLand x0 y0 (s.operandBytes n) row col ↔ s.spriteLands x0 y0 n row col := by
  constructor
  · rintro ⟨r, hr, hrow, c, hc, hb, hcol⟩
    simp only [State.length_operandBytes] at hr
    simp only [State.getElem_operandBytes, spriteBit] at hb
    exact ⟨r, c, hr, hc, hb, congrArg Fin.val hrow, congrArg Fin.val hcol⟩
  · rintro ⟨r, c, hr, hc, hb, hrow, hcol⟩
    exact ⟨r, by simpa using hr, Fin.ext hrow, c, hc, by simpa [spriteBit] using hb, Fin.ext hcol⟩

end Sys2Proof.Machine
end

