-- ==== Sys2Proof/Laws/Memory.lean ====
section
/-! SUPPORT. The laws of memory: read after write, the canonical form that every memory operation keeps, and that two canonical memories that read the same are equal. -/

namespace Sys2Proof.Machine

/-! ### Read after write -/

theorem Memory.read_write_other (m : Memory) {k j : Nat} (v : Byte) (h : j ≠ k) :
    Memory.read (Memory.write m k v) j = Memory.read m j := by
  induction m with
  | nil => unfold Memory.write; split <;> simp [Memory.read, h.symm]
  | cons c m ih =>
    obtain ⟨a, b⟩ := c
    unfold Memory.write
    split
    · split <;> simp [Memory.read, h.symm]
    · split
      · next hk => subst hk; split <;> simp [Memory.read, h.symm]
      · simp [Memory.read, ih]

/-- An index below every listed one reads as unlisted. -/
theorem Memory.read_below {lo : Nat} {m : Memory} (hm : Memory.wfFrom lo m = true) {k : Nat} (hk : k < lo) :
    Memory.read m k = Memory.unlisted k := by
  induction m generalizing lo with
  | nil => rfl
  | cons c m ih =>
    obtain ⟨a, b⟩ := c
    simp only [Memory.wfFrom, Bool.and_eq_true, decide_eq_true_eq] at hm
    have hne : a ≠ k := by omega
    simp only [Memory.read, if_neg hne]
    exact ih hm.2 (by omega)

theorem Memory.read_write_same_from {lo : Nat} {m : Memory} (hm : Memory.wfFrom lo m = true) (k : Nat) (v : Byte) :
    Memory.read (Memory.write m k v) k = v := by
  induction m generalizing lo with
  | nil => unfold Memory.write; split <;> simp_all [Memory.read]
  | cons c m ih =>
    obtain ⟨a, b⟩ := c
    simp only [Memory.wfFrom, Bool.and_eq_true, decide_eq_true_eq] at hm
    unfold Memory.write
    split
    · next hlt =>
      split
      · next hv =>
        have hne : a ≠ k := by omega
        simp only [Memory.read, if_neg hne]
        rw [Memory.read_below hm.2 (by omega), hv]
      · simp [Memory.read]
    · split
      · next hk =>
        subst hk
        split
        · next hv => rw [Memory.read_below hm.2 (by omega), hv]
        · simp [Memory.read]
      · next hne =>
        have hne' : a ≠ k := fun e => hne e.symm
        simp only [Memory.read, if_neg hne']
        exact ih hm.2

theorem Memory.read_write_same {m : Memory} (hm : Memory.wf m = true) (k : Nat) (v : Byte) :
    Memory.read (Memory.write m k v) k = v := Memory.read_write_same_from hm k v

/-! ### The canonical form -/

theorem Memory.wfFrom_mono {lo lo' : Nat} {m : Memory} (hm : Memory.wfFrom lo m = true) (h : lo' ≤ lo) :
    Memory.wfFrom lo' m = true := by
  cases m with
  | nil => rfl
  | cons c m =>
    obtain ⟨a, b⟩ := c
    simp only [Memory.wfFrom, Bool.and_eq_true, decide_eq_true_eq] at hm ⊢
    exact ⟨⟨⟨by omega, hm.1.1.2⟩, hm.1.2⟩, hm.2⟩

theorem Memory.wfFrom_write {lo : Nat} {m : Memory} (hm : Memory.wfFrom lo m = true) {k : Nat} (hlo : lo ≤ k)
    (hk : k < Config.memSize) (v : Byte) : Memory.wfFrom lo (Memory.write m k v) = true := by
  induction m generalizing lo with
  | nil =>
    unfold Memory.write
    split
    · rfl
    · next hv => simp [Memory.wfFrom, hlo, hk, hv]
  | cons c m ih =>
    obtain ⟨a, b⟩ := c
    have hm' := hm
    simp only [Memory.wfFrom, Bool.and_eq_true, decide_eq_true_eq, bne_iff_ne, ne_eq] at hm
    obtain ⟨⟨⟨h1, h2⟩, h3⟩, h4⟩ := hm
    unfold Memory.write
    split
    · next hlt =>
      split
      · exact hm'
      · next hv =>
        have : k + 1 ≤ a := by omega
        simp [Memory.wfFrom, hlo, hk, hv, this, h2, h3, h4]
    · split
      · next hka =>
        subst hka
        split
        · exact Memory.wfFrom_mono h4 (by omega)
        · next hv => simp [Memory.wfFrom, hlo, hk, hv, h4]
      · next hge hne =>
        have := ih h4 (by omega : a + 1 ≤ k)
        simp [Memory.wfFrom, h1, h2, h3, this]

theorem Memory.wf_write {m : Memory} (hm : Memory.wf m = true) {k : Nat} (hk : k < Config.memSize) (v : Byte) :
    Memory.wf (Memory.write m k v) = true := Memory.wfFrom_write hm (Nat.zero_le _) hk v

/-- Two memories in canonical form that read the same at every index are the same list. -/
theorem Memory.ext_from {lo : Nat} {m n : Memory} (hm : Memory.wfFrom lo m = true) (hn : Memory.wfFrom lo n = true)
    (h : ∀ k, Memory.read m k = Memory.read n k) : m = n := by
  induction m generalizing lo n with
  | nil =>
    cases n with
    | nil => rfl
    | cons c n =>
      obtain ⟨a, b⟩ := c
      simp only [Memory.wfFrom, Bool.and_eq_true, bne_iff_ne, ne_eq] at hn
      exact absurd (h a).symm (by simpa [Memory.read] using hn.1.2)
  | cons c m ih =>
    obtain ⟨a, b⟩ := c
    simp only [Memory.wfFrom, Bool.and_eq_true, decide_eq_true_eq, bne_iff_ne, ne_eq] at hm
    obtain ⟨⟨⟨h1, h2⟩, h3⟩, h4⟩ := hm
    cases n with
    | nil => exact absurd (h a) (by simpa [Memory.read] using h3)
    | cons c n =>
      obtain ⟨a', b'⟩ := c
      simp only [Memory.wfFrom, Bool.and_eq_true, decide_eq_true_eq, bne_iff_ne, ne_eq] at hn
      obtain ⟨⟨⟨g1, g2⟩, g3⟩, g4⟩ := hn
      rcases Nat.lt_trichotomy a a' with hlt | heq | hgt
      · have e := h a
        simp only [Memory.read, if_true, if_neg (Nat.ne_of_gt hlt)] at e
        rw [Memory.read_below g4 (by omega)] at e
        exact absurd e h3
      · subst heq
        have e := h a
        simp only [Memory.read, if_true] at e
        subst e
        have hmn : m = n := by
          refine ih h4 g4 fun k => ?_
          by_cases hk : k = a
          · subst hk; rw [Memory.read_below h4 (by omega), Memory.read_below g4 (by omega)]
          · have e := h k
            simpa [Memory.read, Ne.symm hk] using e
        rw [hmn]
      · have e := h a'
        simp only [Memory.read, if_true, if_neg (Nat.ne_of_gt hgt)] at e
        rw [Memory.read_below h4 (by omega)] at e
        exact absurd e.symm g3

theorem Memory.ext_of_wf {m n : Memory} (hm : Memory.wf m = true) (hn : Memory.wf n = true)
    (h : ∀ k, Memory.read m k = Memory.read n k) : m = n := Memory.ext_from hm hn h

/-! ### The memory port -/

theorem memIndex_lt (a : Word) : memIndex a < Config.memSize := Nat.mod_lt _ (by decide)

theorem State.memRead_memWrite_same {s : State} (hm : Memory.wf s.mem = true) {a c : Word} (v : Byte)
    (h : memIndex c = memIndex a) : (s.memWrite a v).memRead c = v := by
  simp only [State.memRead, State.memWrite_mem, h]
  exact Memory.read_write_same hm _ _

theorem State.memRead_memWrite_other (s : State) {a c : Word} (v : Byte) (h : memIndex c ≠ memIndex a) :
    (s.memWrite a v).memRead c = s.memRead c := by
  simp only [State.memRead, State.memWrite_mem]
  exact Memory.read_write_other _ _ h

theorem State.wf_memWrite {s : State} (hm : Memory.wf s.mem = true) (a : Word) (v : Byte) :
    Memory.wf (s.memWrite a v).mem = true := Memory.wf_write hm (memIndex_lt a) v

theorem State.wf_memWriteList {s : State} (hm : Memory.wf s.mem = true) (a : Word) (bs : List Byte) :
    Memory.wf (s.memWriteList a bs).mem = true := by
  induction bs generalizing s a with
  | nil => exact hm
  | cons b bs ih => exact ih (State.wf_memWrite hm a b) _

/-- Up to 16 addresses in a row name different indices, across both wraps (rule R54). -/
theorem memIndex_add_ne (a : Word) {j k : Nat} (hj : j < k) (hk : k < 16) :
    memIndex (a + BitVec.ofNat 16 j) ≠ memIndex (a + BitVec.ofNat 16 k) := by
  have ha := a.isLt
  have ej : j % 2 ^ 16 = j := by omega
  have ek : k % 2 ^ 16 = k := by omega
  simp only [memIndex, Config.memSize, BitVec.toNat_add, BitVec.toNat_ofNat, ej, ek]
  rcases Nat.lt_or_ge (a.toNat + k) (2 ^ 16) with h | h
  · rw [Nat.mod_eq_of_lt h, Nat.mod_eq_of_lt (by omega : a.toNat + j < 2 ^ 16)]
    omega
  · have e : (a.toNat + k) % 2 ^ 16 = a.toNat + k - 2 ^ 16 := by omega
    rw [e]
    rcases Nat.lt_or_ge (a.toNat + j) (2 ^ 16) with h' | h'
    · rw [Nat.mod_eq_of_lt h']; omega
    · have e' : (a.toNat + j) % 2 ^ 16 = a.toNat + j - 2 ^ 16 := by omega
      rw [e']; omega

/-- Everything outside the written bytes reads as before. -/
theorem State.memRead_memWriteList_other (s : State) (a : Word) (bs : List Byte) {c : Word}
    (h : ∀ k < bs.length, memIndex c ≠ memIndex (a + BitVec.ofNat 16 k)) :
    (s.memWriteList a bs).memRead c = s.memRead c := by
  induction bs generalizing s a with
  | nil => rfl
  | cons b bs ih =>
    have h0 := h 0 (by simp)
    simp only [BitVec.add_zero] at h0
    rw [State.memWriteList, ih, State.memRead_memWrite_other _ _ h0]
    intro k hk
    have := h (k + 1) (by simpa using hk)
    rwa [Nat.add_comm k 1, BitVec.ofNat_add, ← BitVec.add_assoc] at this

/-- The `j`-th byte written, of at most 16, is what its address reads as after. -/
theorem State.memRead_memWriteList_at {s : State} (hm : Memory.wf s.mem = true) (a : Word) (bs : List Byte)
    (hlen : bs.length ≤ 16) {j : Nat} (hj : j < bs.length) :
    (s.memWriteList a bs).memRead (a + BitVec.ofNat 16 j) = bs[j] := by
  induction bs generalizing s a j with
  | nil => exact absurd hj (by simp)
  | cons b bs ih =>
    have hlen' : bs.length + 1 ≤ 16 := by simpa using hlen
    rw [State.memWriteList]
    cases j with
    | zero =>
      rw [State.memRead_memWriteList_other]
      · simpa using State.memRead_memWrite_same hm b (c := a) rfl
      · intro k hk
        have h := memIndex_add_ne a (j := 0) (k := k + 1) (by omega) (by omega)
        rwa [Nat.add_comm k 1, BitVec.ofNat_add, ← BitVec.add_assoc] at h
    | succ j =>
      have := ih (State.wf_memWrite hm a b) (a + 1) (by omega) (j := j) (by simpa using hj)
      have e : a + BitVec.ofNat 16 (j + 1) = a + 1 + BitVec.ofNat 16 j := by
        rw [Nat.add_comm j 1, BitVec.ofNat_add, ← BitVec.add_assoc]; rfl
      rw [e]
      simpa using this

/-- A store of bytes depends on the memory of a state alone. -/
theorem State.memWriteList_congr {s t : State} (h : t.mem = s.mem) (a : Word) (bs : List Byte) :
    (t.memWriteList a bs).mem = (s.memWriteList a bs).mem := by
  induction bs generalizing s t a with
  | nil => exact h
  | cons b bs ih => exact ih (by simp [State.memWrite, h]) _

/-- The memory after reset is in canonical form. -/
theorem State.wf_reset : Memory.wf State.reset.mem = true := rfl

end Sys2Proof.Machine
end

