-- ==== Sys2Proof/Laws/PerInstr.lean ====
section
/-! SUPPORT. The family TableRow of statements about every instruction as syntax: the word of an instruction is selected by the instruction's own row of the opcode table, and that row stands in the table (rule R74, 30_encoding.md). -/

namespace Sys2Proof.Laws

/-! ### The words of each format under the masks of the table -/

/-- AND acts on the two halves of a concatenation apart. -/
theorem append_and {n m : Nat} (a c : BitVec n) (b d : BitVec m) : (a ++ b) &&& (c ++ d) = (a &&& c) ++ (b &&& d) := by
  apply BitVec.eq_of_getLsbD_eq
  intro i hi
  simp only [BitVec.getLsbD_and, BitVec.getLsbD_append]
  split <;> rfl

theorem mask_op : (0xF000 : Word) = (0xF : Nibble) ++ (0x000 : Addr12) := by decide
theorem mask_low : (0xF00F : Word) = (0xF : Nibble) ++ ((0x0 : Nibble) ++ ((0x0 : Nibble) ++ (0xF : Nibble))) := by decide
theorem mask_byte : (0xF0FF : Word) = (0xF : Nibble) ++ ((0x0 : Nibble) ++ (0xFF : Byte)) := by decide

theorem and_ones4 (a : Nibble) : a &&& 0xF = a := by revert a; decide
theorem and_none {n : Nat} (a : BitVec n) : a &&& (0 : BitVec n) = 0 := BitVec.and_zero
theorem and_ones8 (a : Byte) : a &&& 0xFF = a := by
  have : (0xFF : Byte) = BitVec.allOnes 8 := by decide
  rw [this, BitVec.and_allOnes]

theorem selects_formatA (s : String) (op : Nibble) (nnn : Addr12) :
    (Row.mk s 0xF000 (op ++ (0 : Addr12))).selects (formatA op nnn) = true := by
  have h := append_and op 0xF nnn 0
  rw [and_ones4, and_none] at h
  exact beq_iff_eq.mpr ((congrArg (formatA op nnn &&& ·) mask_op).trans h)

theorem selects_formatXB (s : String) (op : Nibble) (x : Reg) (nn : Byte) :
    (Row.mk s 0xF000 (op ++ (0 : Addr12))).selects (formatXB op x nn) = true :=
  selects_formatA s op (regBits x ++ nn)

theorem selects_formatXYN (s : String) (op : Nibble) (x : Reg) (y n : Nibble) :
    (Row.mk s 0xF000 (op ++ (0 : Addr12))).selects (formatXYN op x y n) = true :=
  selects_formatA s op (regBits x ++ (y ++ n))

theorem selects_formatXY (s : String) (op : Nibble) (x : Reg) (y n : Nibble) :
    (Row.mk s 0xF00F (op ++ ((0 : Nibble) ++ ((0 : Nibble) ++ n)))).selects (formatXYN op x y n) = true := by
  have h := append_and op 0xF (regBits x ++ (y ++ n)) ((0 : Nibble) ++ ((0 : Nibble) ++ (0xF : Nibble)))
  have h2 := append_and (regBits x) 0 (y ++ n) ((0 : Nibble) ++ (0xF : Nibble))
  have h3 := append_and y 0 n 0xF
  rw [and_ones4, and_none] at h3
  rw [and_none] at h2
  rw [and_ones4] at h
  have h4 := h.trans (congrArg (op ++ ·) (h2.trans (congrArg ((0 : Nibble) ++ ·) h3)))
  exact beq_iff_eq.mpr ((congrArg (formatXYN op x y n &&& ·) mask_low).trans h4)

theorem selects_formatXS (s : String) (op : Nibble) (x : Reg) (nn : Byte) :
    (Row.mk s 0xF0FF (op ++ ((0 : Nibble) ++ nn))).selects (formatXB op x nn) = true := by
  have h := append_and op 0xF (regBits x ++ nn) ((0 : Nibble) ++ (0xFF : Byte))
  have h2 := append_and (regBits x) 0 nn 0xFF
  rw [and_ones8, and_none] at h2
  rw [and_ones4] at h
  have h4 := h.trans (congrArg (op ++ ·) h2)
  exact beq_iff_eq.mpr ((congrArg (formatXB op x nn &&& ·) mask_byte).trans h4)

namespace TableRow

/-- The word of the instruction is selected by its own row, and the row stands in the table. -/
def Statement (i : Instr) : Prop := i.row.selects (encode i) = true ∧ i.row ∈ opcodeTable

theorem cls : Statement (.cls) :=
  ⟨by decide, by simp [opcodeTable, Instr.row]⟩

theorem ret : Statement (.ret) :=
  ⟨by decide, by simp [opcodeTable, Instr.row]⟩

theorem jp (nnn : Addr12) : Statement (.jp nnn) :=
  ⟨selects_formatA _ _ nnn, by simp [opcodeTable, Instr.row]⟩

theorem call (nnn : Addr12) : Statement (.call nnn) :=
  ⟨selects_formatA _ _ nnn, by simp [opcodeTable, Instr.row]⟩

theorem seImm (x : Reg) (nn : Byte) : Statement (.seImm x nn) :=
  ⟨selects_formatXB _ _ x nn, by simp [opcodeTable, Instr.row]⟩

theorem sneImm (x : Reg) (nn : Byte) : Statement (.sneImm x nn) :=
  ⟨selects_formatXB _ _ x nn, by simp [opcodeTable, Instr.row]⟩

theorem ldImm (x : Reg) (nn : Byte) : Statement (.ldImm x nn) :=
  ⟨selects_formatXB _ _ x nn, by simp [opcodeTable, Instr.row]⟩

theorem addImm (x : Reg) (nn : Byte) : Statement (.addImm x nn) :=
  ⟨selects_formatXB _ _ x nn, by simp [opcodeTable, Instr.row]⟩

theorem ldReg (x : Reg) (y : Reg) : Statement (.ldReg x y) :=
  ⟨selects_formatXY _ _ x (regBits y) _, by simp [opcodeTable, Instr.row]⟩

theorem andReg (x : Reg) (y : Reg) : Statement (.andReg x y) :=
  ⟨selects_formatXY _ _ x (regBits y) _, by simp [opcodeTable, Instr.row]⟩

theorem xorReg (x : Reg) (y : Reg) : Statement (.xorReg x y) :=
  ⟨selects_formatXY _ _ x (regBits y) _, by simp [opcodeTable, Instr.row]⟩

theorem addReg (x : Reg) (y : Reg) : Statement (.addReg x y) :=
  ⟨selects_formatXY _ _ x (regBits y) _, by simp [opcodeTable, Instr.row]⟩

theorem subReg (x : Reg) (y : Reg) : Statement (.subReg x y) :=
  ⟨selects_formatXY _ _ x (regBits y) _, by simp [opcodeTable, Instr.row]⟩

theorem shr (x : Reg) (y : Nibble) : Statement (.shr x y) :=
  ⟨selects_formatXY _ _ x y _, by simp [opcodeTable, Instr.row]⟩

theorem sneReg (x : Reg) (y : Reg) (n : Nibble) : Statement (.sneReg x y n) :=
  ⟨selects_formatXYN _ _ x (regBits y) n, by simp [opcodeTable, Instr.row]⟩

theorem ldI (nnn : Addr12) : Statement (.ldI nnn) :=
  ⟨selects_formatA _ _ nnn, by simp [opcodeTable, Instr.row]⟩

theorem rnd (x : Reg) (nn : Byte) : Statement (.rnd x nn) :=
  ⟨selects_formatXB _ _ x nn, by simp [opcodeTable, Instr.row]⟩

theorem drw (x : Reg) (y : Reg) (n : Nibble) : Statement (.drw x y n) :=
  ⟨selects_formatXYN _ _ x (regBits y) n, by simp [opcodeTable, Instr.row]⟩

theorem skp (x : Reg) : Statement (.skp x) :=
  ⟨selects_formatXS _ _ x _, by simp [opcodeTable, Instr.row]⟩

theorem sknp (x : Reg) : Statement (.sknp x) :=
  ⟨selects_formatXS _ _ x _, by simp [opcodeTable, Instr.row]⟩

theorem ldVxDt (x : Reg) : Statement (.ldVxDt x) :=
  ⟨selects_formatXS _ _ x _, by simp [opcodeTable, Instr.row]⟩

theorem ldVxK (x : Reg) : Statement (.ldVxK x) :=
  ⟨selects_formatXS _ _ x _, by simp [opcodeTable, Instr.row]⟩

theorem ldDtVx (x : Reg) : Statement (.ldDtVx x) :=
  ⟨selects_formatXS _ _ x _, by simp [opcodeTable, Instr.row]⟩

theorem ldStVx (x : Reg) : Statement (.ldStVx x) :=
  ⟨selects_formatXS _ _ x _, by simp [opcodeTable, Instr.row]⟩

theorem addI (x : Reg) : Statement (.addI x) :=
  ⟨selects_formatXS _ _ x _, by simp [opcodeTable, Instr.row]⟩

theorem ldF (x : Reg) : Statement (.ldF x) :=
  ⟨selects_formatXS _ _ x _, by simp [opcodeTable, Instr.row]⟩

theorem ldB (x : Reg) : Statement (.ldB x) :=
  ⟨selects_formatXS _ _ x _, by simp [opcodeTable, Instr.row]⟩

theorem storeRegs (x : Reg) : Statement (.storeRegs x) :=
  ⟨selects_formatXS _ _ x _, by simp [opcodeTable, Instr.row]⟩

theorem loadRegs (x : Reg) : Statement (.loadRegs x) :=
  ⟨selects_formatXS _ _ x _, by simp [opcodeTable, Instr.row]⟩

/-- The statement of every instruction. -/
theorem every : ∀ i : Instr, Statement i
  | .cls => cls
  | .ret => ret
  | .jp nnn => jp nnn
  | .call nnn => call nnn
  | .seImm x nn => seImm x nn
  | .sneImm x nn => sneImm x nn
  | .ldImm x nn => ldImm x nn
  | .addImm x nn => addImm x nn
  | .ldReg x y => ldReg x y
  | .andReg x y => andReg x y
  | .xorReg x y => xorReg x y
  | .addReg x y => addReg x y
  | .subReg x y => subReg x y
  | .shr x y => shr x y
  | .sneReg x y n => sneReg x y n
  | .ldI nnn => ldI nnn
  | .rnd x nn => rnd x nn
  | .drw x y n => drw x y n
  | .skp x => skp x
  | .sknp x => sknp x
  | .ldVxDt x => ldVxDt x
  | .ldVxK x => ldVxK x
  | .ldDtVx x => ldDtVx x
  | .ldStVx x => ldStVx x
  | .addI x => addI x
  | .ldF x => ldF x
  | .ldB x => ldB x
  | .storeRegs x => storeRegs x
  | .loadRegs x => loadRegs x

end TableRow

end Sys2Proof.Laws
end

