-- ==== Sys2Proof/Laws/Stack.lean ====
section
/-! SUPPORT. What a push and a pop of the call stack answer (rules R24, R102, R104). -/

namespace Sys2Proof.Machine

/-- A push answers nothing exactly when the stack is full. -/
theorem State.push?_eq_none {s : State} {ret : Word} : s.push? ret = none ↔ s.sp.val = Config.stackDepth := by
  have := s.sp.isLt
  unfold State.push?
  split <;> simp <;> omega

/-- Everything a push can do when it succeeds. -/
theorem State.push?_eq_some {s t : State} {ret : Word} (h : s.push? ret = some t) :
    ∃ hk : s.sp.val < Config.stackDepth,
      t = { s with stack := s.stack.set s.sp.val ret hk, sp := ⟨s.sp.val + 1, Nat.succ_lt_succ hk⟩ } := by
  unfold State.push? at h
  split at h
  · next hk => exact ⟨hk, (Option.some.inj h).symm⟩
  · cases h

/-- A push with a free slot succeeds. -/
theorem State.push?_of_lt {s : State} {ret : Word} (hk : s.sp.val < Config.stackDepth) :
    s.push? ret = some { s with stack := s.stack.set s.sp.val ret hk, sp := ⟨s.sp.val + 1, Nat.succ_lt_succ hk⟩ } := by
  simp [State.push?, hk]

/-- A pop answers nothing exactly when the stack is empty. -/
theorem State.pop?_eq_none {s : State} : s.pop? = none ↔ s.sp.val = 0 := by
  unfold State.pop?
  split
  · next h => simp; exact fun e => by simp [e] at h
  · next h => simpa using h

/-- Everything a pop can do when it succeeds. -/
theorem State.pop?_eq_some {s t : State} {w : Word} (h : s.pop? = some (w, t)) :
    ∃ hk : s.sp.val - 1 < Config.stackDepth, 0 < s.sp.val ∧ w = s.stack[s.sp.val - 1] ∧
      t = { s with sp := ⟨s.sp.val - 1, Nat.lt_succ_of_lt hk⟩ } := by
  unfold State.pop? at h
  split at h
  · next h0 =>
    have := s.sp.isLt
    simp only [Option.some.injEq, Prod.mk.injEq] at h
    exact ⟨by omega, h0, h.1.symm, h.2.symm⟩
  · cases h

/-- A pop of a non-empty stack succeeds. -/
theorem State.pop?_of_pos {s : State} (h0 : 0 < s.sp.val) (hk : s.sp.val - 1 < Config.stackDepth) :
    s.pop? = some (s.stack[s.sp.val - 1], { s with sp := ⟨s.sp.val - 1, Nat.lt_succ_of_lt hk⟩ }) := by
  simp [State.pop?, h0]

end Sys2Proof.Machine
end

