-- ==== Sys2Proof/Laws/Step.lean ====
section
/-! SUPPORT. Everything a step, a meaning and a list of host operations can do, said once (rules R100, R200 to R208, R214): a later proof about all instructions cites these and unfolds no meaning. -/

namespace Sys2Proof.Machine

/-! ### The step -/

/-- The four ways a step answers a next state. -/
theorem step_cases {s t : State} (h : step s = .next t) :
    (s.halted = true ∧ t = s) ∨
    (s.halted = false ∧ ∃ i, s.fetched = .instr i ∧ exec i s.advance = .next t) ∨
    (s.halted = false ∧ s.fetched = .unknownSubOpcode ∧ t = s.advance.softFailure s.fetchWord s.pc) ∨
    (s.halted = false ∧ s.fetched = .unknownFamily ∧ t = s.advance.hardFailure s.fetchWord s.pc) := by
  unfold step at h
  cases hh : s.halted with
  | true =>
    rw [hh, if_pos rfl] at h
    cases h
    exact .inl ⟨rfl, rfl⟩
  | false =>
    rw [hh, if_neg Bool.false_ne_true] at h
    split at h
    · next i hf => exact .inr (.inl ⟨rfl, i, hf, h⟩)
    · next hf => cases h; exact .inr (.inr (.inl ⟨rfl, hf, rfl⟩))
    · next hf => cases h; exact .inr (.inr (.inr ⟨rfl, hf, rfl⟩))

/-- After the fetch, the address fetched from is the `PC` before it (log 20). -/
@[simp] theorem State.fetchedFrom_advance (s : State) : s.advance.fetchedFrom = s.pc := by
  simp [State.fetchedFrom, BitVec.add_assoc]

/-! ### The instructions with more than one outcome -/

/-- 00EE underflows on an empty stack and pops on any other. -/
theorem execRet_cases {s t : State} (h : exec .ret s = .next t) :
    (s.sp.val = 0 ∧ t = s.raise .stackUnderflow (encode .ret) s.fetchedFrom) ∨
    (∃ (_ : 0 < s.sp.val) (hk : s.sp.val - 1 < Config.stackDepth),
      t = ({ s with sp := ⟨s.sp.val - 1, Nat.lt_succ_of_lt hk⟩ } : State).setPc s.stack[s.sp.val - 1]) := by
  simp only [exec, execRet] at h
  cases e : s.pop? with
  | none => rw [e] at h; cases h; exact .inl ⟨State.pop?_eq_none.mp e, rfl⟩
  | some p =>
    obtain ⟨w, u⟩ := p
    rw [e] at h
    cases h
    obtain ⟨hk, h0, rfl, rfl⟩ := State.pop?_eq_some e
    exact .inr ⟨h0, hk, rfl⟩

/-- 2nnn overflows on a full stack and pushes on any other. -/
theorem execCall_cases {s t : State} {nnn : Addr12} (h : exec (.call nnn) s = .next t) :
    (s.sp.val = Config.stackDepth ∧ t = s.raise .stackOverflow (encode (.call nnn)) s.fetchedFrom) ∨
    (∃ hk : s.sp.val < Config.stackDepth,
      t = ({ s with stack := s.stack.set s.sp.val s.pc hk, sp := ⟨s.sp.val + 1, Nat.succ_lt_succ hk⟩ } : State).setPc
        (immAddr nnn)) := by
  simp only [exec, execCall] at h
  cases e : s.push? s.pc with
  | none => rw [e] at h; cases h; exact .inl ⟨State.push?_eq_none.mp e, rfl⟩
  | some u =>
    rw [e] at h
    cases h
    obtain ⟨hk, rfl⟩ := State.push?_eq_some e
    exact .inr ⟨hk, rfl⟩

/-- Fx0A polls again with no key held and takes the least key held otherwise. -/
theorem execLdVxK_cases {s t : State} {x : Reg} (h : exec (.ldVxK x) s = .next t) :
    (s.leastKey? = none ∧ t = s.setPc (add16 s.pc 0xFFFE)) ∨
    (∃ k, s.leastKey? = some k ∧ t = s.setReg x (BitVec.ofNat 8 k.val)) := by
  simp only [exec, execLdVxK] at h
  cases e : s.leastKey? with
  | none => rw [e] at h; cases h; exact .inl ⟨rfl, rfl⟩
  | some k => rw [e] at h; cases h; exact .inr ⟨k, rfl, rfl⟩

/-! ### What every meaning keeps -/

/-- Every meaning keeps the canonical form of memory. -/
theorem exec_keeps_wf {i : Instr} {s t : State} (h : exec i s = .next t) (hm : Memory.wf s.mem = true) :
    Memory.wf t.mem = true := by
  cases i
  case ret => rcases execRet_cases h with ⟨-, rfl⟩ | ⟨-, -, rfl⟩ <;> exact hm
  case call nnn => rcases execCall_cases h with ⟨-, rfl⟩ | ⟨-, rfl⟩ <;> exact hm
  case ldVxK x =>
    rcases execLdVxK_cases h with ⟨-, rfl⟩ | ⟨k, -, rfl⟩ <;> simp only [State.setPc_mem, State.setReg_mem] <;> exact hm
  case ldB x => cases h; exact State.wf_memWriteList hm _ _
  case storeRegs x => cases h; exact State.wf_memWriteList hm _ _
  all_goals (cases h; first | exact hm | simpa using hm)

/-- Every meaning leaves the halt latch and the error record alone, but for the two stack errors, which leave `PC` and
the stack alone. -/
theorem exec_errors {i : Instr} {s t : State} (h : exec i s = .next t) :
    (t.halted = s.halted ∧ t.err = s.err) ∨
    (i = .ret ∧ s.sp.val = 0 ∧ t = s.raise .stackUnderflow (encode i) s.fetchedFrom) ∨
    (∃ nnn, i = .call nnn ∧ s.sp.val = Config.stackDepth ∧ t = s.raise .stackOverflow (encode i) s.fetchedFrom) := by
  cases i
  case ret =>
    rcases execRet_cases h with ⟨h0, e⟩ | ⟨-, -, rfl⟩
    · exact .inr (.inl ⟨rfl, h0, e⟩)
    · exact .inl ⟨rfl, rfl⟩
  case call nnn =>
    rcases execCall_cases h with ⟨h0, e⟩ | ⟨-, rfl⟩
    · exact .inr (.inr ⟨nnn, rfl, h0, e⟩)
    · exact .inl ⟨rfl, rfl⟩
  case ldVxK x => rcases execLdVxK_cases h with ⟨-, rfl⟩ | ⟨k, -, rfl⟩ <;> exact .inl (by simp only [State.setPc_halted, State.setPc_err, State.setReg_halted, State.setReg_err, and_self])
  all_goals (cases h; exact .inl (by simp))

/-- Every meaning takes one draw of the random input or none. -/
theorem exec_draws {i : Instr} {s t : State} (h : exec i s = .next t) : t.draws = s.draws ∨ t.draws = s.draws + 1 := by
  cases i
  case ret => rcases execRet_cases h with ⟨-, rfl⟩ | ⟨-, -, rfl⟩ <;> exact .inl rfl
  case call nnn => rcases execCall_cases h with ⟨-, rfl⟩ | ⟨-, rfl⟩ <;> exact .inl rfl
  case ldVxK x => rcases execLdVxK_cases h with ⟨-, rfl⟩ | ⟨k, -, rfl⟩ <;> simp only [State.setPc_draws, State.setReg_draws, true_or]
  case rnd x nn => cases h; exact .inr rfl
  all_goals (cases h; simp)

/-! ### Lists of host operations -/

theorem runOps_append (a b : List HostOp) (s : State) :
    runOps (a ++ b) s =
      match runOps a s with
      | .next t => runOps b t
      | .fault r => .fault r
      | .refused r => .refused r := by
  induction a generalizing s with
  | nil => rfl
  | cons op a ih =>
    simp only [List.cons_append, runOps]
    cases act op s with
    | next t => exact ih t
    | fault r => rfl
    | refused r => rfl

/-- A Tick on one timer, as a number (rule R210). -/
theorem toNat_tickDown (b : Byte) : (tickDown b).toNat = b.toNat - 1 := by
  have := b.isLt
  unfold tickDown
  split
  · rw [BitVec.toNat_sub]; simp; omega
  · omega

/-- The index of the `k`-th ROM byte (rule R242). -/
theorem memIndex_rom {k : Nat} (h : k < Config.romMax) : memIndex (0x200 + BitVec.ofNat 16 k) = 0x200 + k := by
  simp only [Config.romMax, Config.memSize, Config.progBase] at h
  have e : k % 2 ^ 16 = k := by omega
  simp only [memIndex, Config.memSize, BitVec.toNat_add, BitVec.toNat_ofNat, e]
  have e2 : (BitVec.toNat (0x200 : Word)) = 512 := rfl
  rw [e2]
  omega

/-- The pixels a sprite covers depend on `I` and memory alone. -/
theorem State.spriteLands_congr {s t : State} (hi : t.i = s.i) (hm : ∀ a, t.memRead a = s.memRead a) (x0 y0 n : Nat)
    (row : Fin Config.dispH) (col : Fin Config.dispW) : t.spriteLands x0 y0 n row col ↔ s.spriteLands x0 y0 n row col := by
  simp only [State.spriteLands, hi, hm]

end Sys2Proof.Machine
end

