-- ==== Sys2Proof/Tests/Slice0.lean ====
section
/-! SUPPORT. Tests: words and ROMs that are refused, the decoding of a word of every instruction, one or two steps of every instruction, the host's operations, and for every statement with hypotheses a state and operands that meet them. Expected results are those of spec/95_test_vectors.md, or are read from the pattern the docstring names; none comes from a run of the model. -/

namespace Sys2Proof.Tests

set_option Elab.async false

open Sys2Proof Sys2Proof.Machine

/-! ### Well-formedness (30_encoding.md section 4, 70_reset_and_hazards.md section 1) -/

/-- Family 0 holds two words only (T-DEC-2, T-DEC-3). -/
theorem test_wf_refuses_family0 : wordWf 0x00E1 = false ∧ wordWf 0x01E0 = false ∧ wordWf 0x00E0 = true := by decide

/-- Family 5 holds none (T-DEC-13). -/
theorem test_wf_refuses_family5 : wordWf 0x5120 = false := by decide

/-- 8xy1, 8xy7 and 8xyE are none (T-DEC-5 to T-DEC-7). -/
theorem test_wf_refuses_family8 : wordWf 0x8121 = false ∧ wordWf 0x8127 = false ∧ wordWf 0x812E = false := by decide

/-- Family B holds none (T-DEC-14). -/
theorem test_wf_refuses_familyB : wordWf 0xB300 = false := by decide

/-- Family E holds two low bytes only (T-DEC-8, T-DEC-9). -/
theorem test_wf_refuses_familyE : wordWf 0xE19F = false ∧ wordWf 0xE000 = false ∧ wordWf 0xE19E = true := by decide

/-- Family F holds nine low bytes only (T-DEC-10 to T-DEC-12). -/
theorem test_wf_refuses_familyF :
    wordWf 0xF000 = false ∧ wordWf 0xF10E = false ∧ wordWf 0xF075 = false ∧ wordWf 0xF085 = false := by decide

/-- A ROM of 3584 bytes is refused, one of 3583 is not (S-8). -/
theorem test_wf_rom : romWf (List.replicate 3583 0x00) = true ∧ romWf (List.replicate 3584 0x00) = false := by
  simp only [romWf, List.length_replicate]
  decide

/-! ### Decode: a word of each instruction, bit by bit from its pattern (30_encoding.md section 3) -/

theorem test_decode_cls : decode 0b0000000011100000 = .instr .cls := by decide
theorem test_decode_ret : decode 0b0000000011101110 = .instr .ret := by decide
theorem test_decode_jp : decode 0b0001001000110100 = .instr (.jp 0x234) := by decide
theorem test_decode_call : decode 0b0010101010111100 = .instr (.call 0xABC) := by decide
theorem test_decode_seImm : decode 0b0011101000000101 = .instr (.seImm 10 0x05) := by decide
theorem test_decode_sneImm : decode 0b0100000111110000 = .instr (.sneImm 1 0xF0) := by decide
theorem test_decode_ldImm : decode 0b0110101000101111 = .instr (.ldImm 10 0x2F) := by decide
theorem test_decode_addImm : decode 0b0111001100000001 = .instr (.addImm 3 0x01) := by decide
theorem test_decode_ldReg : decode 0b1000000100100000 = .instr (.ldReg 1 2) := by decide
theorem test_decode_andReg : decode 0b1000000100100010 = .instr (.andReg 1 2) := by decide
theorem test_decode_xorReg : decode 0b1000000100100011 = .instr (.xorReg 1 2) := by decide
theorem test_decode_addReg : decode 0b1000000100100100 = .instr (.addReg 1 2) := by decide
theorem test_decode_subReg : decode 0b1000000100100101 = .instr (.subReg 1 2) := by decide
theorem test_decode_shr : decode 0b1000001110100110 = .instr (.shr 3 0xA) := by decide
theorem test_decode_sneReg : decode 0b1001000100100001 = .instr (.sneReg 1 2 1) := by decide
theorem test_decode_ldI : decode 0b1010001100001100 = .instr (.ldI 0x30C) := by decide
theorem test_decode_rnd : decode 0b1100001000001111 = .instr (.rnd 2 0x0F) := by decide
theorem test_decode_drw : decode 0b1101000100100101 = .instr (.drw 1 2 5) := by decide
theorem test_decode_skp : decode 0b1110001110011110 = .instr (.skp 3) := by decide
theorem test_decode_sknp : decode 0b1110001110100001 = .instr (.sknp 3) := by decide
theorem test_decode_ldVxDt : decode 0b1111000100000111 = .instr (.ldVxDt 1) := by decide
theorem test_decode_ldVxK : decode 0b1111010100001010 = .instr (.ldVxK 5) := by decide
theorem test_decode_ldDtVx : decode 0b1111011000010101 = .instr (.ldDtVx 6) := by decide
theorem test_decode_ldStVx : decode 0b1111001000011000 = .instr (.ldStVx 2) := by decide
theorem test_decode_addI : decode 0b1111001000011110 = .instr (.addI 2) := by decide
theorem test_decode_ldF : decode 0b1111101000101001 = .instr (.ldF 10) := by decide
theorem test_decode_ldB : decode 0b1111011100110011 = .instr (.ldB 7) := by decide
theorem test_decode_storeRegs : decode 0b1111001001010101 = .instr (.storeRegs 2) := by decide
theorem test_decode_loadRegs : decode 0b1111001001100101 = .instr (.loadRegs 2) := by decide

/-- The two kinds of word that are no instruction (T-DEC-1, T-DEC-6, T-DEC-15). -/
theorem test_decode_unknown :
    decode 0x0000 = .unknownSubOpcode ∧ decode 0x8127 = .unknownSubOpcode ∧ decode 0x5000 = .unknownFamily ∧
    decode 0xBFFF = .unknownFamily := by decide

/-- The encoder writes the words of the same patterns. -/
theorem test_encode_words :
    encode (.drw 1 2 5) = 0xD125 ∧ encode (.loadRegs 2) = 0xF265 ∧ encode (.shr 3 0xA) = 0x83A6 ∧
    encode (.call 0xABC) = 0x2ABC := by decide

/-- The table's numbering of a word's bits (bit 0 the least significant). -/
theorem test_decodeTableWord :
    decodeTableWord 16 0xD125 = some (.drw 1 2 5) ∧ decodeTableWord 16 0x00EE = some .ret ∧
    decodeTableWord 16 0x5120 = none := by decide

/-- A placed word is the one the next step fetches, at an odd and at the last `PC` too. -/
theorem test_withFetchWord :
    (State.reset.withFetchWord 16 0xD125).fetched = .instr (.drw 1 2 5) ∧
    ((State.reset.setPc 0x201).withFetchWord 16 0x6123).fetched = .instr (.ldImm 1 0x23) ∧
    ((State.reset.setPc 0xFFE).withFetchWord 16 0x6123).fetched = .instr (.ldImm 1 0x23) := by decide +kernel

/-! ### One step -/

/-- The state after one step on the word `w` at `PC`; `none` if there is no next state. -/
def ran (w : Nat) (s : State) : Option State :=
  match step (s.withFetchWord 16 w) with
  | .next t => some t
  | .fault _ => none
  | .refused _ => none

/-- The reset state with two registers written. -/
def regs2 (x : Reg) (a : Byte) (y : Reg) (b : Byte) : State := (State.reset.setReg x a).setReg y b

/-- The reset state with one key held. -/
def held (k : Fin Config.nKeys) : State := State.reset.keySet k true

/-- The reset state with one return address on the stack. -/
def called (a : Word) : State := { State.reset with stack := State.reset.stack.set 0 a, sp := 1 }

/-- The reset state with a full stack. -/
def fullStack : State := { State.reset with sp := 16 }

/-- The reset state with a sprite of one byte at 0x300, and `I` there. -/
def sprite (b : Byte) : State := (State.reset.memWrite 0x300 b).setI 0x300

/-- T-CTL-1. -/
theorem test_jp : (ran 0x1234 State.reset).map (fun t => t.pc) = some 0x0234 := by decide +kernel

/-- T-CTL-4. -/
theorem test_call :
    (ran 0x2300 State.reset).map (fun t => (t.pc, t.sp.val, t.stack[0])) = some (0x0300, 1, 0x0202) := by decide +kernel

/-- T-CTL-5, the 17th call. -/
theorem test_call_overflow :
    (ran 0x2200 fullStack).map (fun t => (t.pc, t.sp.val, t.statusExport)) =
      some (0x0202, 16, (true, 4, 0x2200, 0x0200)) := by decide +kernel

/-- T-CTL-6: an odd return address is legal. -/
theorem test_ret : (ran 0x00EE (called 0x0ABD)).map (fun t => (t.pc, t.sp.val)) = some (0x0ABD, 0) := by decide +kernel

/-- T-CTL-7. -/
theorem test_ret_underflow :
    (ran 0x00EE State.reset).map (fun t => (t.pc, t.sp.val, t.statusExport)) =
      some (0x0202, 0, (true, 3, 0x00EE, 0x0200)) := by decide +kernel

/-- T-CTL-8 and T-CTL-9. -/
theorem test_seImm :
    (ran 0x3A05 (State.reset.setReg 10 5)).map (fun t => t.pc) = some 0x0204 ∧
    (ran 0x3A05 (State.reset.setReg 10 6)).map (fun t => t.pc) = some 0x0202 := by decide +kernel

/-- T-CTL-10 and T-CTL-11. -/
theorem test_sneImm :
    (ran 0x4100 (State.reset.setReg 1 4)).map (fun t => t.pc) = some 0x0204 ∧
    (ran 0x4100 State.reset).map (fun t => t.pc) = some 0x0202 := by decide +kernel

/-- T-CTL-13 and T-CTL-14: the low nibble is not decoded. -/
theorem test_sneReg :
    (ran 0x9120 (regs2 1 2 2 2)).map (fun t => t.pc) = some 0x0202 ∧
    (ran 0x9121 (regs2 1 1 2 2)).map (fun t => (t.pc, t.statusExport)) = some (0x0204, (false, 0, 0, 0)) := by
  decide +kernel

/-- T-ALU-1. -/
theorem test_ldImm : (ran 0x6A2F State.reset).map (fun t => (t.reg 10, t.pc)) = some (0x2F, 0x0202) := by decide +kernel

/-- T-ALU-3: the sum wraps and VF stays. -/
theorem test_addImm_wraps :
    (ran 0x7301 (State.reset.setReg 3 0xFF)).map (fun t => (t.reg 3, t.reg 15)) = some (0x00, 0x00) := by decide +kernel

/-- T-ALU-5. -/
theorem test_ldReg :
    (ran 0x8120 (State.reset.setReg 2 0x7C)).map (fun t => (t.reg 1, t.reg 2)) = some (0x7C, 0x7C) := by decide +kernel

/-- T-ALU-6, without its VF. -/
theorem test_andReg : (ran 0x8012 (regs2 0 0xF0 1 0x3C)).map (fun t => (t.reg 0, t.reg 15)) = some (0x30, 0) := by
  decide +kernel

/-- T-ALU-7. -/
theorem test_xorReg : (ran 0x8013 (regs2 0 0xF0 1 0x3C)).map (fun t => (t.reg 0, t.reg 15)) = some (0xCC, 0) := by
  decide +kernel

/-- S-2b and S-2d. -/
theorem test_addReg :
    (ran 0x8014 (regs2 0 255 1 1)).map (fun t => (t.reg 0, t.reg 15)) = some (0, 1) ∧
    (ran 0x8014 (regs2 0 0 1 255)).map (fun t => (t.reg 0, t.reg 15)) = some (255, 0) := by decide +kernel

/-- T-ALU-11: with `x` = F the carry wins. -/
theorem test_addReg_into_VF : (ran 0x8F14 (regs2 15 0xF0 1 0x20)).map (fun t => t.reg 15) = some 0x01 := by decide +kernel

/-- S-3a and S-3c. -/
theorem test_subReg :
    (ran 0x8015 (regs2 0 5 1 10)).map (fun t => (t.reg 0, t.reg 15)) = some (251, 0) ∧
    (ran 0x8015 (regs2 0 5 1 5)).map (fun t => (t.reg 0, t.reg 15)) = some (0, 1) := by decide +kernel

/-- T-ALU-16: with `x` = F the not-borrow wins. -/
theorem test_subReg_into_VF : (ran 0x8F15 (regs2 15 5 1 10)).map (fun t => t.reg 15) = some 0x00 := by decide +kernel

/-- T-ALU-20: `y` is not used. -/
theorem test_shr :
    (ran 0x83A6 (regs2 3 0x80 10 0xFF)).map (fun t => (t.reg 3, t.reg 15, t.reg 10)) = some (0x40, 0x00, 0xFF) := by
  decide +kernel

/-- T-ALU-22: with `x` = F the shifted value wins. -/
theorem test_shr_VF : (ran 0x8F06 (State.reset.setReg 15 7)).map (fun t => t.reg 15) = some 0x03 := by decide +kernel

/-- T-ALU-24 and T-ALU-26, on a given draw. -/
theorem test_rnd :
    (rndWith 0xA7 2 0x0F State.reset).reg 2 = 0x07 ∧ (rndWith 0x5A 15 0xFF State.reset).reg 15 = 0x5A := by decide +kernel

/-- T-MEM-1. -/
theorem test_ldI : (ran 0xA300 State.reset).map (fun t => t.i) = some 0x0300 := by decide +kernel

/-- T-MEM-13: the sum wraps at 16 bits and VF stays. -/
theorem test_addI :
    (ran 0xF21E ((regs2 2 1 15 7).setI 0xFFFF)).map (fun t => (t.i, t.reg 15)) = some (0x0000, 7) := by decide +kernel

/-- T-MEM-14 and T-MEM-17: the byte is not masked. -/
theorem test_ldF :
    (ran 0xF029 (State.reset.setReg 0 0x0A)).map (fun t => t.i) = some 0x0032 ∧
    (ran 0xF329 (State.reset.setReg 3 0xFF)).map (fun t => t.i) = some 0x04FB := by decide +kernel

/-- T-MEM-2. -/
theorem test_ldB :
    (ran 0xF033 ((State.reset.setReg 0 234).setI 0x300)).map
      (fun t => (t.memRead 0x300, t.memRead 0x301, t.memRead 0x302, t.i)) = some (2, 3, 4, 0x0300) := by decide +kernel

/-- T-MEM-8: the digits run over the top of memory. -/
theorem test_ldB_wraps :
    (ran 0xF033 ((State.reset.setReg 0 199).setI 0xFFE)).map
      (fun t => (t.memRead 0xFFE, t.memRead 0x000, t.memRead 0x001)) = some (1, 9, 9) := by decide +kernel

/-- T-MEM-3, its first two registers. -/
theorem test_storeRegs :
    (ran 0xF255 ((regs2 0 0x11 1 0x22).setI 0x400)).map
      (fun t => (t.memRead 0x400, t.memRead 0x401, t.memRead 0x402, t.i)) = some (0x11, 0x22, 0, 0x0403) := by
  decide +kernel

/-- T-MEM-10, its registers V2 and V3: the addresses wrap at 16 bits, then modulo 4095. -/
theorem test_storeRegs_wraps :
    (ran 0xF355 ((regs2 2 3 3 4).setI 0xFFFE)).map
      (fun t => (t.memRead 14, t.memRead 15, t.memRead 0, t.memRead 1, t.i)) = some (0, 0, 3, 4, 0x0002) := by decide +kernel

/-- T-MEM-4, on two bytes. -/
theorem test_loadRegs :
    (ran 0xF165 (((State.reset.memWrite 0x300 2).memWrite 0x301 3).setI 0x300)).map
      (fun t => (t.reg 0, t.reg 1, t.reg 2, t.i)) = some (2, 3, 0, 0x0302) := by decide +kernel

/-- T-DSP-1, on one pixel. -/
theorem test_cls :
    (ran 0x00E0 { State.reset with disp := Grid.flip State.reset.disp 31 63 }).map
      (fun t => (t.pixel 31 63, t.dirty, t.reg 15)) = some (false, true, 0) := by decide +kernel

/-- T-DSP-5: a row wraps at the right edge. -/
theorem test_drw_wraps :
    (ran 0xD011 (((sprite 0xFF).setReg 0 60).setReg 1 31)).map
      (fun t => (t.pixel 31 59, t.pixel 31 60, t.pixel 31 3, t.pixel 31 4, t.reg 15, t.dirty)) =
      some (false, true, true, false, 0, true) := by decide +kernel

/-- T-DSP-7, on pixel (2, 0): an on pixel goes off and VF says so. -/
theorem test_drw_collides :
    (ran 0xD001 { sprite 0xF0 with disp := Grid.flip State.reset.disp 0 2 }).map
      (fun t => (t.pixel 0 1, t.pixel 0 2, t.pixel 0 4, t.reg 15)) = some (true, false, false, 1) := by decide +kernel

/-- T-KEY-3 and T-KEY-5: the key index is the byte modulo 16. -/
theorem test_skp :
    (ran 0xE39E ((held 7).setReg 3 7)).map (fun t => t.pc) = some 0x0204 ∧
    (ran 0xE09E ((held 7).setReg 0 0x17)).map (fun t => t.pc) = some 0x0204 := by decide +kernel

/-- T-KEY-2 and T-KEY-4. -/
theorem test_sknp :
    (ran 0xE0A1 (State.reset.setReg 0 5)).map (fun t => t.pc) = some 0x0204 ∧
    (ran 0xE3A1 ((held 7).setReg 3 7)).map (fun t => t.pc) = some 0x0202 := by decide +kernel

/-- T-KEY-7: a poll with no key held. -/
theorem test_ldVxK_polls :
    (ran 0xF30A (State.reset.setReg 3 0xEE)).map (fun t => (t.pc, t.reg 3)) = some (0x0200, 0xEE) := by decide +kernel

/-- T-KEY-8, on two keys: the least index. -/
theorem test_ldVxK :
    (ran 0xF30A ((held 9).keySet 4 true)).map (fun t => (t.pc, t.reg 3)) = some (0x0202, 0x04) := by decide +kernel

/-- T-TMR-2. -/
theorem test_ldVxDt :
    (ran 0xF107 (State.reset.setDt 0x2A)).map (fun t => (t.reg 1, t.dt)) = some (0x2A, 0x2A) := by decide +kernel

/-- T-TMR-1. -/
theorem test_ldDtVx : (ran 0xF015 (State.reset.setReg 0 0x3C)).map (fun t => (t.dt, t.st)) = some (0x3C, 0) := by
  decide +kernel

/-- T-TMR-3 and T-TMR-4. -/
theorem test_ldStVx :
    (ran 0xF218 (State.reset.setReg 2 5)).map (fun t => (t.st, t.soundOn)) = some (5, true) ∧
    (ran 0xF218 (State.reset.setSt 9)).map (fun t => (t.st, t.soundOn)) = some (0, false) := by decide +kernel

/-- T-DEC-5: a soft failure. -/
theorem test_soft_failure :
    (ran 0x8121 (regs2 1 1 2 2)).map (fun t => (t.pc, t.reg 1, t.statusExport)) =
      some (0x0202, 1, (false, 1, 0x8121, 0x0200)) := by decide +kernel

/-- T-DEC-13: a hard failure. -/
theorem test_hard_failure :
    (ran 0x5120 State.reset).map (fun t => (t.pc, t.statusExport)) = some (0x0202, (true, 2, 0x5120, 0x0200)) := by
  decide +kernel

/-- T-FET-5: the arithmetic of the last `PC`. -/
theorem test_fetch_wraps :
    (State.reset.setPc 0xFFFF).fetchWord = 0xF0F0 ∧ (State.reset.setPc 0xFFFF).advance.pc = 0x0001 := by decide +kernel

/-! ### The host's operations -/

/-- S-9. -/
theorem test_tick :
    (State.reset.setDt 2).tick = State.reset.setDt 1 ∧
    ((State.reset.setDt 255).setSt 5).tick = (State.reset.setDt 254).setSt 4 := by decide +kernel

/-- T-HOST-1. -/
theorem test_keySet :
    (State.reset.keySet 11 true).keyHeld 11 = true ∧ (State.reset.keySet 11 true).keyHeld 10 = false ∧
    (State.reset.keySet 11 true).keySet 11 false = State.reset := by decide +kernel

/-- T-HOST-2. -/
theorem test_frameAck : ({ State.reset with dirty := true } : State).frameAck = State.reset := by decide +kernel

/-- Reset with a ROM of two bytes places them at 0x200 (R242). -/
theorem test_reset_rom :
    (match hostReset [0x61, 0x23] 0 with
      | .next t => some (t.memRead 0x200, t.memRead 0x201, t.memRead 0x202, t.memRead 0, t.pc)
      | .fault _ => none
      | .refused _ => none) = some (0x61, 0x23, 0x00, 0xF0, 0x0200) := by decide +kernel

/-- Reset does not rewind the random input (R129): a machine rebuilt after a Cxnn draws on. -/
theorem test_reset_keeps_the_input :
    (match runOps [.reset [0xC2, 0x0F], .step, .reset []] State.reset with
      | .next t => some t.draws
      | .fault _ => none
      | .refused _ => none) = some 1 := by decide +kernel

/-- S-8, the ROM that is too long. -/
theorem test_reset_load_error : hostReset (List.replicate 3584 0x00) 0 = .fault .loadError := by
  rw [hostReset, test_wf_rom.2, if_neg Bool.false_ne_true]

/-! ### The hypotheses of the statements can be met -/

/-- The reset state with the word `w` at `PC`. -/
def at200 (w : Nat) : State := State.reset.withFetchWord 16 w

/-- A word of each encoding that a statement of a numbered rule assumes, its other fields at the end of their range. -/
theorem witness_encodings :
    (0x1FFF : Word).extractLsb' 12 4 = 0x1 ∧ (0x3FFF : Word).extractLsb' 12 4 = 0x3 ∧
    (0x4FFF : Word).extractLsb' 12 4 = 0x4 ∧ (0x6FFF : Word).extractLsb' 12 4 = 0x6 ∧
    (0x7FFF : Word).extractLsb' 12 4 = 0x7 ∧ (0xAFFF : Word).extractLsb' 12 4 = 0xA ∧
    (∀ n : Nibble, (0x8FF0 ||| n.setWidth 16 : Word).extractLsb' 12 4 = 0x8 ∧
      (0x8FF0 ||| n.setWidth 16 : Word).extractLsb' 0 4 = n) ∧
    (∀ n : Byte, (0xFF00 ||| n.setWidth 16 : Word).extractLsb' 12 4 = 0xF ∧
      (0xFF00 ||| n.setWidth 16 : Word).extractLsb' 0 8 = n) := by decide +kernel

theorem witness_EncodingADecodedWordGivesItBack : decode 0xD125 = .instr (.drw 1 2 5) := by decide

theorem witness_DecoderAgreesWithTheOpcodeTable :
    Instr.row (.drw 0 0 0) ∈ opcodeTable ∧ (0xD125 : Word) &&& (Instr.row (.drw 0 0 0)).mask = (Instr.row (.drw 0 0 0)).pattern := by
  decide +kernel

/-- Each clause of the second statement about words that are none. -/
theorem witness_UnknownWordsFallInTheirClasses :
    decode 0x5FFF = .unknownFamily ∧ decode 0x00EF = .unknownSubOpcode ∧ decode 0x8FFF = .unknownSubOpcode ∧
    decode 0xE0A2 = .unknownSubOpcode ∧ decode 0xF066 = .unknownSubOpcode := by decide

theorem witness_StepRunsTheDecodedInstruction :
    (at200 0x7301).halted = false ∧
    decode ((at200 0x7301).memRead (at200 0x7301).pc ++ (at200 0x7301).memRead ((at200 0x7301).pc + 1)) =
      .instr (.addImm 3 1) := by decide +kernel

theorem witness_UnknownSubOpcodeIsReportedAndSkipped :
    (at200 0x8121).halted = false ∧
    decode ((at200 0x8121).memRead (at200 0x8121).pc ++ (at200 0x8121).memRead ((at200 0x8121).pc + 1)) =
      .unknownSubOpcode := by decide +kernel

theorem witness_UnknownFamilyHaltsTheCore :
    (at200 0xB300).halted = false ∧
    decode ((at200 0xB300).memRead (at200 0xB300).pc ++ (at200 0xB300).memRead ((at200 0xB300).pc + 1)) =
      .unknownFamily := by decide +kernel

theorem witness_ReturnOnEmptyStackHaltsTheCore :
    (at200 0x00EE).halted = false ∧
    decode ((at200 0x00EE).memRead (at200 0x00EE).pc ++ (at200 0x00EE).memRead ((at200 0x00EE).pc + 1)) = .instr .ret ∧
    (at200 0x00EE).sp.val = 0 := by decide +kernel

theorem witness_CallOnFullStackHaltsTheCore :
    (fullStack.withFetchWord 16 0x2200).halted = false ∧
    decode ((fullStack.withFetchWord 16 0x2200).memRead (fullStack.withFetchWord 16 0x2200).pc ++
      (fullStack.withFetchWord 16 0x2200).memRead ((fullStack.withFetchWord 16 0x2200).pc + 1)) = .instr (.call 0x200) ∧
    (fullStack.withFetchWord 16 0x2200).sp.val = Config.stackDepth := by decide +kernel

/-- A halted state that a run reaches: it meets the hypothesis of `HaltedStepChangesNothing` and of
`HaltPersistsUntilReset`. -/
theorem witness_halted :
    (ran 0x5120 State.reset).map (fun t => t.halted) = some true ∧
    ∀ op ∈ [HostOp.step, .tick, .keySet 3 true, .frameAck], op.keepsMachine = true := by decide +kernel

/-- The last call that fits. -/
theorem witness_CallSavesThePcAndJumps : ({ State.reset with sp := 15 } : State).sp.val < Config.stackDepth := by decide

/-- The deepest and the shallowest return. -/
theorem witness_ReturnTakesTheSavedPc : 0 < fullStack.sp.val ∧ 0 < (called 0x202).sp.val := by decide

theorem witness_CallThenReturnComesBack :
    (at200 0x2200).halted = false ∧ (at200 0x2300).fetched = .instr (.call 0x300) ∧ (at200 0x2300).sp.val < Config.stackDepth ∧
    (ran 0x2300 ((State.reset.memWrite 0x300 0x00).memWrite 0x301 0xEE)).map (fun t => t.fetched) = some (.instr .ret) := by
  decide +kernel

/-- The inner hypothesis of the source property of 7xnn. -/
theorem witness_AddImmediateWrapsWithoutAFlag : State.reset.reg 3 = 0 ∧ (2 : Reg) ≠ 3 := by decide

theorem witness_RandomByteIsDrawnAndMasked : ∃ r, Config.rnd State.reset.draws = r := ⟨_, rfl⟩

/-- Canonical memories: the empty one, one with a cell, one with a font byte changed. -/
theorem witness_memory :
    Memory.wf State.reset.mem = true ∧ Memory.wf (sprite 0xFF).mem = true ∧
    Memory.wf (State.reset.memWrite 0xFFF 0x11).mem = true := by decide +kernel

/-- An address outside the stored bytes, with the stored bytes across both wraps. -/
theorem witness_outside_address :
    ∀ k < 4, memIndex 0x0010 ≠ memIndex ((State.reset.setI 0xFFFE).effAddr k) := by decide +kernel

theorem witness_StoreThenLoadGivesTheRegistersBack :
    ∀ t : State, (t.setI State.reset.i).i = State.reset.i ∧ ∀ a, (t.setI State.reset.i).memRead a = t.memRead a :=
  fun _ => ⟨rfl, fun _ => rfl⟩

/-- The store of Fx55 reaches the word at `PC`, at its first and at its last pair of registers. -/
theorem witness_StoreIsSeenByTheNextFetch :
    Memory.wf (State.reset.setI 0x200).mem = true ∧ (State.reset.setI 0x200).pc = (State.reset.setI 0x200).i + BitVec.ofNat 16 0 ∧
    (State.reset.setI 0x1F2).pc = (State.reset.setI 0x1F2).i + BitVec.ofNat 16 14 ∧ 14 + 1 ≤ (15 : Reg).val := by
  decide +kernel

/-- A sprite bit that lands on an on pixel, and one that lands on an off pixel, at the corner where both axes wrap. -/
theorem witness_DrawXorsTheSpriteAndReportsCollision :
    (sprite 0x01).spriteLands 63 31 1 31 6 ∧ ({ sprite 0x01 with disp := Grid.flip State.reset.disp 31 6 } : State).pixel 31 6 = true ∧
    (sprite 0x01).pixel 31 6 = false :=
  ⟨⟨0, 7, by decide +kernel⟩, by decide +kernel⟩

/-- A sprite whose bits are all 0 lands nowhere. -/
theorem witness_DrawXorsTheSpriteAndReportsCollision_none (row : Fin Config.dispH) (col : Fin Config.dispW) :
    ¬ (sprite 0x00).spriteLands 0 0 0 row col := fun ⟨_, _, h, _⟩ => absurd h (Nat.not_lt_zero _)

theorem witness_draw_operands : (0 : Reg) ≠ 15 ∧ (14 : Reg) ≠ 15 := by decide

/-- A held key named by a byte above 15, and a released one. -/
theorem witness_KeySkipsTestTheNamedKey :
    (7 : Fin Config.nKeys).val = (((held 7).setReg 0 0x17).reg 0).toNat % 16 ∧ ((held 7).setReg 0 0x17).keyHeld 7 = true ∧
    (15 : Fin Config.nKeys).val = (((held 7).setReg 0 0xFF).reg 0).toNat % 16 ∧ ((held 7).setReg 0 0xFF).keyHeld 15 = false := by
  decide +kernel

theorem witness_KeyWaitTakesTheLeastHeldKey :
    ((held 9).keySet 4 true).keyHeld 4 = true ∧ (∀ j, j < 4 → ((held 9).keySet 4 true).keyHeld j = false) ∧
    (held 15).keyHeld 15 = true ∧ (∀ j, j < 15 → (held 15).keyHeld j = false) := by decide +kernel

theorem witness_KeyWaitPollChangesNothing :
    (at200 0xF30A).halted = false ∧ (at200 0xF30A).fetched = .instr (.ldVxK 3) ∧ ∀ k, (at200 0xF30A).keyHeld k = false := by
  decide +kernel

/-- A step that answers a next state: the hypothesis of every statement about all steps. -/
theorem witness_next : ∃ t, step (at200 0x7301) = .next t := ⟨_, rfl⟩

/-- The longest ROM that loads and the shortest that does not. -/
theorem witness_ResetLoadsTheRomOrFails :
    (List.replicate 3583 (0x00 : Byte)).length ≤ Config.memSize - 0x200 ∧
    Config.memSize - 0x200 < (List.replicate 3584 (0x00 : Byte)).length := by
  simp only [List.length_replicate]
  decide

theorem witness_ResetZeroesTheRegisters : ([] : List Byte).length ≤ Config.romMax := by decide

/-- The invariant holds in a state with a word placed; with `witness_next` this meets `StepKeepsTheInvariant`, and with
`witness_halting_step` a step that halts meets it too. -/
theorem witness_inv : Inv (at200 0x7301) ∧ Inv (at200 0x5120) := by
  constructor <;> constructor <;> decide +kernel

theorem witness_halting_step : ∃ t, step (at200 0x5120) = .next t ∧ t.halted = true := ⟨_, rfl, rfl⟩

theorem witness_HostOperationsKeepTheInvariant :
    ∃ t, runOps [.reset [0x61, 0x23], .step, .tick, .keySet 3 true, .frameAck] State.reset = .next t := ⟨_, rfl⟩

/-- A Cxnn, and then a Reset and another Cxnn. -/
theorem witness_NoDrawIsTakenTwice :
    ∃ t u, exec (.rnd 2 0x0F) State.reset = .next t ∧ runOps [.reset [0xC2, 0x0F], .step] t = .next u :=
  ⟨_, _, rfl, rfl⟩

/-- An instruction that changes a register it may write. -/
theorem witness_InstructionsWriteOnlyTheirRegisters :
    ∃ t, exec (.ldImm 3 1) State.reset = .next t ∧ t.reg 3 ≠ State.reset.reg 3 := ⟨_, rfl, by decide⟩

theorem witness_SafeRunsAreSafeThroughout :
    SafeRun ([.reset [0x61, 0x23], .step] ++ [.tick, .step]) State.reset := ⟨_, rfl, rfl⟩

theorem witness_SelfJumpIsAFixedPoint : (at200 0x1200).halted = false ∧ (at200 0x1200).atSelfJump :=
  ⟨rfl, 0x200, by decide +kernel⟩

end Sys2Proof.Tests
end

