-- ==== Sys2Proof/Proofs/Control.lean ====
section
/-! SUPPORT. Control transfer (40_control.md): the frame of a write to `PC` and of a skip, the decoding of families 1, 3 and 4, and the statements about 1nnn, 3xnn and 4xnn. -/

namespace Sys2Proof.Machine

/-! ### Frames -/

/-- A write to `PC` changes nothing else. -/
theorem sameBut_setPc (s : State) (a : Word) : SameBut [.pc] s (s.setPc a) :=
  sameBut_of_fields (fun _ => rfl) (fun _ => rfl) (pc := fun h => absurd (List.mem_singleton_self _) h)
    (fun _ => rfl) (fun _ => rfl) (fun _ => rfl) (fun _ => rfl) (fun _ => rfl) (fun _ => rfl) (fun _ => rfl)
    (fun _ => rfl) (fun _ => rfl) (fun _ => rfl) (fun _ => rfl)

/-- A skip, taken or not, changes nothing but `PC` (rule R101). -/
theorem sameBut_skipIf (s : State) (c : Bool) : SameBut [.pc] s (s.skipIf c) := by
  cases c with
  | false => exact SameBut.refl _ s
  | true => exact sameBut_setPc s _

/-! ### The families of the control-transfer instructions (rules R74, R75) -/

theorem decode_of_opField_eq_1 {w : Word} (h : opField w = 0x1) : decode w = .instr (.jp (nnnField w)) := by
  simp [decode, h]

theorem decode_of_opField_eq_3 {w : Word} (h : opField w = 0x3) :
    decode w = .instr (.seImm (xField w) (nnField w)) := by
  simp [decode, h]

theorem decode_of_opField_eq_4 {w : Word} (h : opField w = 0x4) :
    decode w = .instr (.sneImm (xField w) (nnField w)) := by
  simp [decode, h]

/-! ### Jump -/

/-- The zero-extension of an immediate address keeps its value (rule R73). -/
@[simp] theorem toNat_immAddr (nnn : Addr12) : (immAddr nnn).toNat = nnn.toNat :=
  BitVec.toNat_setWidth_of_le (by decide)

theorem exec_jp (nnn : Addr12) (s : State) : exec (.jp nnn) s = .next (s.setPc (immAddr nnn)) := rfl

/-- Settles O13: 1nnn is one write of the zero-extended target to `PC`. -/
theorem jumpGoesToItsTarget : Obligations.JumpGoesToItsTarget :=
  ⟨fun _ h => decode_of_opField_eq_1 h,
    fun nnn s => ⟨_, exec_jp nnn s, toNat_immAddr nnn, sameBut_setPc s _⟩⟩

/-! ### Skips on an immediate comparison -/

theorem exec_seImm (x : Reg) (nn : Byte) (s : State) :
    exec (.seImm x nn) s = .next (s.skipIf (s.reg x == nn)) := rfl

theorem exec_sneImm (x : Reg) (nn : Byte) (s : State) :
    exec (.sneImm x nn) s = .next (s.skipIf (s.reg x != nn)) := rfl

/-- The `PC` after a skip on equality. -/
theorem State.skipIf_beq_pc (s : State) (a b : Byte) :
    (s.skipIf (a == b)).pc = if a = b then s.pc + 2 else s.pc := by
  simp

/-- The `PC` after a skip on difference: the two branches of a skip on equality, exchanged. -/
theorem State.skipIf_bne_pc (s : State) (a b : Byte) :
    (s.skipIf (a != b)).pc = if a = b then s.pc else s.pc + 2 := by
  by_cases h : a = b <;> simp [h]

/-- Settles O17: each of 3xnn and 4xnn is one `skipIf`, on complementary conditions. -/
theorem skipOnImmediateComparison : Obligations.SkipOnImmediateComparison := by
  refine ⟨fun _ h => decode_of_opField_eq_3 h, fun _ h => decode_of_opField_eq_4 h, fun x nn s => ⟨?_, ?_⟩⟩
  · exact ⟨_, exec_seImm x nn s, s.skipIf_beq_pc _ _, sameBut_skipIf s _⟩
  · exact ⟨_, exec_sneImm x nn s, s.skipIf_bne_pc _ _, sameBut_skipIf s _⟩

end Sys2Proof.Machine
end

