-- ==== Sys2Proof/Proofs/Alu.lean ====
section
/-! SUPPORT. Register arithmetic (41_alu.md): the frame of a register write and of a result with its flag, the 8-bit results and the flags as numbers, the decoding of families 6, 7 and 8, and the statements about 6xnn, 7xnn, 8xy0 and 8xy2 to 8xy5. -/

namespace Sys2Proof.Machine

/-! ### Frames -/

/-- A register write changes nothing but the registers. -/
theorem sameBut_setReg (s : State) (x : Reg) (b : Byte) : SameBut [.v] s (s.setReg x b) :=
  sameBut_of_fields (v := fun h => absurd (List.mem_singleton_self _) h) (fun _ => rfl) (fun _ => rfl)
    (fun _ => rfl) (fun _ => rfl) (fun _ => rfl) (fun _ => rfl) (fun _ => rfl) (fun _ => rfl) (fun _ => rfl)
    (fun _ => rfl) (fun _ => rfl) (fun _ => rfl) (fun _ => rfl)

theorem sameBut_setVF (s : State) (f : Bool) : SameBut [.v] s (s.setVF f) :=
  sameBut_setReg s regF (flagByte f)

/-- A result and then its flag change nothing but the registers. -/
theorem sameBut_setReg_setVF (s : State) (x : Reg) (b : Byte) (f : Bool) :
    SameBut [.v] s ((s.setReg x b).setVF f) :=
  (sameBut_setReg s x b).trans (sameBut_setVF _ f)

/-- A result and then its flag, read back: the flag wins at VF (rules R11, R126, R127). -/
theorem State.reg_setReg_setVF (s : State) (x r : Reg) (b : Byte) (f : Bool) :
    ((s.setReg x b).setVF f).reg r = if r = regF then flagByte f else if r = x then b else s.reg r := by
  rw [State.reg_setVF, State.reg_setReg]

/-! ### Results and flags as numbers (rules R22, R120) -/

@[simp] theorem toNat_add8 (a b : Byte) : (add8 a b).toNat = (a.toNat + b.toNat) % 256 := by
  simp [add8]

/-- The difference, wrapped exactly when there is a borrow. -/
theorem toNat_sub8 (a b : Byte) :
    (sub8 a b).toNat = if a.toNat < b.toNat then a.toNat + 256 - b.toNat else a.toNat - b.toNat := by
  have mod_256 : (sub8 a b).toNat = (a.toNat + 256 - b.toNat) % 256 := by simp [sub8]
  have ha := a.isLt
  have hb := b.isLt
  split <;> omega

theorem toNat_flagByte (f : Bool) : (flagByte f).toNat = if f then 1 else 0 := by
  cases f <;> rfl

theorem toNat_flagByte_carryOf (a b : Byte) :
    (flagByte (carryOf a b)).toNat = if a.toNat + b.toNat > 255 then 1 else 0 := by
  simp [toNat_flagByte, carryOf]

theorem toNat_flagByte_notBorrowOf (a b : Byte) :
    (flagByte (notBorrowOf a b)).toNat = if a.toNat < b.toNat then 0 else 1 := by
  by_cases h : a.toNat < b.toNat <;> simp [toNat_flagByte, notBorrowOf, h]

/-! ### The families of the arithmetic instructions (rules R74, R75, R78) -/

theorem decode_of_opField_eq_6 {w : Word} (h : opField w = 0x6) :
    decode w = .instr (.ldImm (xField w) (nnField w)) := by
  simp [decode, h]

theorem decode_of_opField_eq_7 {w : Word} (h : opField w = 0x7) :
    decode w = .instr (.addImm (xField w) (nnField w)) := by
  simp [decode, h]

/-- Family 8 leaves the choice to the low nibble. -/
theorem decode_of_opField_eq_8 {w : Word} (h : opField w = 0x8) : decode w = decodeFamily8 w := by
  simp [decode, h]

theorem decodeFamily8_of_nField_eq_0 {w : Word} (h : nField w = 0x0) :
    decodeFamily8 w = .instr (.ldReg (xField w) (yField w)) := by
  simp [decodeFamily8, h]

theorem decodeFamily8_of_nField_eq_2 {w : Word} (h : nField w = 0x2) :
    decodeFamily8 w = .instr (.andReg (xField w) (yField w)) := by
  simp [decodeFamily8, h]

theorem decodeFamily8_of_nField_eq_3 {w : Word} (h : nField w = 0x3) :
    decodeFamily8 w = .instr (.xorReg (xField w) (yField w)) := by
  simp [decodeFamily8, h]

theorem decodeFamily8_of_nField_eq_4 {w : Word} (h : nField w = 0x4) :
    decodeFamily8 w = .instr (.addReg (xField w) (yField w)) := by
  simp [decodeFamily8, h]

theorem decodeFamily8_of_nField_eq_5 {w : Word} (h : nField w = 0x5) :
    decodeFamily8 w = .instr (.subReg (xField w) (yField w)) := by
  simp [decodeFamily8, h]

/-! ### Load and copy -/

theorem exec_ldImm (x : Reg) (nn : Byte) (s : State) : exec (.ldImm x nn) s = .next (s.setReg x nn) := rfl

theorem exec_ldReg (x y : Reg) (s : State) : exec (.ldReg x y) s = .next (s.setReg x (s.reg y)) := rfl

/-- Settles O19: each of 6xnn and 8xy0 is one register write. -/
theorem loadImmediateAndCopyWriteOneRegister : Obligations.LoadImmediateAndCopyWriteOneRegister := by
  refine ⟨fun _ h => decode_of_opField_eq_6 h,
    fun _ h h0 => (decode_of_opField_eq_8 h).trans (decodeFamily8_of_nField_eq_0 h0), fun x y nn s => ⟨?_, ?_⟩⟩
  · exact ⟨_, exec_ldImm x nn s, fun r => s.reg_setReg x r _, sameBut_setReg s x _⟩
  · exact ⟨_, exec_ldReg x y s, fun r => s.reg_setReg x r _, sameBut_setReg s x _⟩

/-! ### Addition of an immediate -/

theorem exec_addImm (x : Reg) (nn : Byte) (s : State) :
    exec (.addImm x nn) s = .next (s.setReg x (add8 (s.reg x) nn)) := rfl

/-- Two additions of the same immediate to 0, the source property of rule R122. -/
theorem toNat_add8_add8_zero (nn : Byte) : (add8 (add8 0 nn) nn).toNat = (2 * nn.toNat) % 256 := by
  simp [two_mul]

/-- Settles O20: 7xnn is one register write of the wrapped sum, so a second one starts from that sum. -/
theorem addImmediateWrapsWithoutAFlag : Obligations.AddImmediateWrapsWithoutAFlag := by
  refine ⟨fun _ h => decode_of_opField_eq_7 h, fun x nn s =>
    ⟨_, exec_addImm x nn s, ?_, fun r hr => s.reg_setReg_other _ hr, sameBut_setReg s x _, fun h0 =>
      ⟨_, exec_addImm x nn _, ?_⟩⟩⟩
  · rw [State.reg_setReg_same, toNat_add8]
  · rw [State.reg_setReg_same, State.reg_setReg_same, h0, toNat_add8_add8_zero]

/-! ### Bitwise logic -/

theorem exec_andReg (x y : Reg) (s : State) :
    exec (.andReg x y) s = .next (s.setReg x (s.reg x &&& s.reg y)) := rfl

theorem exec_xorReg (x y : Reg) (s : State) :
    exec (.xorReg x y) s = .next (s.setReg x (s.reg x ^^^ s.reg y)) := rfl

/-- Settles O21: each of 8xy2 and 8xy3 is one register write of a bitwise result. -/
theorem andXorActBitByBit : Obligations.AndXorActBitByBit := by
  refine ⟨fun _ h h2 => (decode_of_opField_eq_8 h).trans (decodeFamily8_of_nField_eq_2 h2),
    fun _ h h3 => (decode_of_opField_eq_8 h).trans (decodeFamily8_of_nField_eq_3 h3), fun x y s => ⟨?_, ?_⟩⟩
  · refine ⟨_, exec_andReg x y s, fun k => ?_, fun r hr => s.reg_setReg_other _ hr, sameBut_setReg s x _⟩
    rw [State.reg_setReg_same, BitVec.getLsbD_and]
  · refine ⟨_, exec_xorReg x y s, fun k => ?_, fun r hr => s.reg_setReg_other _ hr, sameBut_setReg s x _⟩
    rw [State.reg_setReg_same, BitVec.getLsbD_xor]

/-! ### Addition and subtraction with a flag -/

theorem exec_addReg (x y : Reg) (s : State) :
    exec (.addReg x y) s =
      .next ((s.setReg x (add8 (s.reg x) (s.reg y))).setVF (carryOf (s.reg x) (s.reg y))) := rfl

theorem exec_subReg (x y : Reg) (s : State) :
    exec (.subReg x y) s =
      .next ((s.setReg x (sub8 (s.reg x) (s.reg y))).setVF (notBorrowOf (s.reg x) (s.reg y))) := rfl

/-- Settles O22: the carry is written after the sum, so it is what VF holds, x = F included. -/
theorem addRegistersWrapsAndSetsTheCarry : Obligations.AddRegistersWrapsAndSetsTheCarry := by
  refine ⟨fun _ h h4 => (decode_of_opField_eq_8 h).trans (decodeFamily8_of_nField_eq_4 h4), fun x y s =>
    ⟨_, exec_addReg x y s, fun r => ?_, sameBut_setReg_setVF s x _ _⟩⟩
  rw [State.reg_setReg_setVF, apply_ite BitVec.toNat, apply_ite BitVec.toNat, toNat_flagByte_carryOf, toNat_add8]

/-- Settles O23: the not-borrow is written after the difference, so it is what VF holds, x = F included. -/
theorem subtractRegistersWrapsAndSetsNotBorrow : Obligations.SubtractRegistersWrapsAndSetsNotBorrow := by
  refine ⟨fun _ h h5 => (decode_of_opField_eq_8 h).trans (decodeFamily8_of_nField_eq_5 h5), fun x y s =>
    ⟨_, exec_subReg x y s, fun r => ?_, sameBut_setReg_setVF s x _ _⟩⟩
  rw [State.reg_setReg_setVF, apply_ite BitVec.toNat, apply_ite BitVec.toNat, toNat_flagByte_notBorrowOf, toNat_sub8]

end Sys2Proof.Machine
end

