-- ==== Sys2Proof/Proofs/IndexMemory.lean ====
section
/-! SUPPORT. The address register (42_index_memory.md): the frame of a write to `I`, the 16-bit sum of `I` and a byte as a number, the decoding of family A and of Fx1E, and the statement about Annn and Fx1E. -/

namespace Sys2Proof.Machine

/-- A write to `I` changes nothing else. -/
theorem sameBut_setI (s : State) (a : Word) : SameBut [.i] s (s.setI a) :=
  sameBut_of_fields (fun _ => rfl) (i := fun h => absurd (List.mem_singleton_self _) h) (fun _ => rfl)
    (fun _ => rfl) (fun _ => rfl) (fun _ => rfl) (fun _ => rfl) (fun _ => rfl) (fun _ => rfl) (fun _ => rfl)
    (fun _ => rfl) (fun _ => rfl) (fun _ => rfl) (fun _ => rfl)

/-- The sum of an address and a zero-extended byte wraps at 16 bits only (rules R54, R141). -/
theorem toNat_add16_zext (a : Word) (b : Byte) : (add16 a (b.setWidth 16)).toNat = (a.toNat + b.toNat) % 65536 := by
  have zext : (b.setWidth 16).toNat = b.toNat := BitVec.toNat_setWidth_of_le (by decide)
  rw [add16_eq, BitVec.toNat_add, zext]

/-! ### The families of the index instructions (rules R74, R75, R79) -/

theorem decode_of_opField_eq_A {w : Word} (h : opField w = 0xA) : decode w = .instr (.ldI (nnnField w)) := by
  simp [decode, h]

/-- Family F leaves the choice to the low byte. -/
theorem decode_of_opField_eq_F {w : Word} (h : opField w = 0xF) : decode w = decodeFamilyF w := by
  simp [decode, h]

theorem decodeFamilyF_of_nnField_eq_1E {w : Word} (h : nnField w = 0x1E) :
    decodeFamilyF w = .instr (.addI (xField w)) := by
  simp [decodeFamilyF, h]

/-! ### Load and addition -/

theorem exec_ldI (nnn : Addr12) (s : State) : exec (.ldI nnn) s = .next (s.setI (immAddr nnn)) := rfl

theorem exec_addI (x : Reg) (s : State) :
    exec (.addI x) s = .next (s.setI (add16 s.i ((s.reg x).setWidth 16))) := rfl

/-- Settles O26: each of Annn and Fx1E is one write to `I`, and so leaves VF alone. -/
theorem indexRegisterLoadAndAdd : Obligations.IndexRegisterLoadAndAdd := by
  refine ⟨fun _ h => decode_of_opField_eq_A h,
    fun _ h h1E => (decode_of_opField_eq_F h).trans (decodeFamilyF_of_nnField_eq_1E h1E), fun nnn x s => ⟨?_, ?_⟩⟩
  · exact ⟨_, exec_ldI nnn s, toNat_immAddr nnn, sameBut_setI s _⟩
  · exact ⟨_, exec_addI x s, toNat_add16_zext s.i (s.reg x), sameBut_setI s _⟩

end Sys2Proof.Machine
end

