-- ==== Sys2Proof/Proofs/InputTimers.lean ====
section
/-! SUPPORT. Input and timers (44_input_timers.md): the frame of a write to `DT`, the decoding of Fx07 and Fx15, and the statement about them. -/

namespace Sys2Proof.Machine

/-- A write to `DT` changes nothing else. -/
theorem sameBut_setDt (s : State) (b : Byte) : SameBut [.dt] s (s.setDt b) :=
  sameBut_of_fields (fun _ => rfl) (fun _ => rfl) (fun _ => rfl) (fun _ => rfl) (fun _ => rfl)
    (dt := fun h => absurd (List.mem_singleton_self _) h) (fun _ => rfl) (fun _ => rfl) (fun _ => rfl)
    (fun _ => rfl) (fun _ => rfl) (fun _ => rfl) (fun _ => rfl) (fun _ => rfl)

/-! ### The delay-timer instructions of family F (rules R74, R75, R79) -/

theorem decodeFamilyF_of_nnField_eq_07 {w : Word} (h : nnField w = 0x07) :
    decodeFamilyF w = .instr (.ldVxDt (xField w)) := by
  simp [decodeFamilyF, h]

theorem decodeFamilyF_of_nnField_eq_15 {w : Word} (h : nnField w = 0x15) :
    decodeFamilyF w = .instr (.ldDtVx (xField w)) := by
  simp [decodeFamilyF, h]

/-! ### Delay-timer loads -/

theorem exec_ldVxDt (x : Reg) (s : State) : exec (.ldVxDt x) s = .next (s.setReg x s.dt) := rfl

theorem exec_ldDtVx (x : Reg) (s : State) : exec (.ldDtVx x) s = .next (s.setDt (s.reg x)) := rfl

/-- Settles O40: Fx07 is one register write of `DT`, and Fx15 one write of `V[x]` to `DT`. -/
theorem timerLoadsMoveOneByte : Obligations.TimerLoadsMoveOneByte := by
  refine ⟨fun _ h h07 => (decode_of_opField_eq_F h).trans (decodeFamilyF_of_nnField_eq_07 h07),
    fun _ h h15 => (decode_of_opField_eq_F h).trans (decodeFamilyF_of_nnField_eq_15 h15), fun x s => ⟨?_, ?_⟩⟩
  · exact ⟨_, exec_ldVxDt x s, fun r => s.reg_setReg x r _, sameBut_setReg s x _⟩
  · exact ⟨_, exec_ldDtVx x s, s.setDt_dt _, sameBut_setDt s _⟩

end Sys2Proof.Machine
end

