-- ==== Sys2Proof/Proofs/KeyLatch.lean ====
section
/-! SUPPORT. The input latch (60_exceptions.md): the frame of a write to a key slot, that no meaning and no step writes one, and the statement about KeySet. -/

namespace Sys2Proof.Machine

/-- A write to a key slot changes nothing but the latch. -/
theorem sameBut_keySet (s : State) (k : Fin Config.nKeys) (b : Bool) : SameBut [.key] s (s.keySet k b) :=
  sameBut_of_fields (fun _ => rfl) (fun _ => rfl) (fun _ => rfl) (fun _ => rfl) (fun _ => rfl) (fun _ => rfl)
    (fun _ => rfl) (fun _ => rfl) (fun _ => rfl) (key := fun h => absurd (List.mem_singleton_self _) h)
    (fun _ => rfl) (fun _ => rfl) (fun _ => rfl) (fun _ => rfl)

theorem act_keySet (k : Fin Config.nKeys) (b : Bool) (s : State) : act (.keySet k b) s = .next (s.keySet k b) := rfl

/-- No meaning writes the latch, not even those that read it (rule R215). The three instructions with two outcomes are
split by what they can answer; every other one is a single chain of writes to other fields. -/
theorem exec_key {i : Instr} {s t : State} (h : exec i s = .next t) : t.key = s.key := by
  cases i
  case ret =>
    obtain ⟨-, rfl⟩ | ⟨-, -, rfl⟩ := execRet_cases h
    · exact State.raise_key ..
    · exact State.setPc_key ..
  case call nnn =>
    obtain ⟨-, rfl⟩ | ⟨-, rfl⟩ := execCall_cases h
    · exact State.raise_key ..
    · exact State.setPc_key ..
  case ldVxK x =>
    obtain ⟨-, rfl⟩ | ⟨k, -, rfl⟩ := execLdVxK_cases h
    · exact State.setPc_key ..
    · exact State.setReg_key ..
  all_goals
    cases h
    simp

/-- No step writes the latch: neither a halted one, nor the fetch, nor a meaning, nor the report of an unknown word. -/
theorem step_key {s t : State} (h : step s = .next t) : t.key = s.key := by
  obtain ⟨-, rfl⟩ | ⟨-, i, -, he⟩ | ⟨-, -, rfl⟩ | ⟨-, -, rfl⟩ := step_cases h
  · rfl
  · exact (exec_key he).trans s.advance_key
  · exact (State.report_key ..).trans s.advance_key
  · exact (State.raise_key ..).trans s.advance_key

/-- Settles O44: KeySet is one write to one slot, and a step keeps the whole latch. -/
theorem keySetChangesOneSlot : Obligations.KeySetChangesOneSlot :=
  ⟨fun k b s => ⟨_, act_keySet k b s, fun j => s.keyHeld_keySet k j b, sameBut_keySet s k b⟩,
    fun _ _ h => State.keyHeld_of_key (step_key h)⟩

end Sys2Proof.Machine
end

