-- ==== Sys2Proof/Proofs/ResetRom.lean ====
section
/-! SUPPORT. Reset and the ROM (70_reset_and_hazards.md): reading back a store of any length whose bytes do not overwrite one another, the two outcomes of Reset, and the statement about the ROM it loads. -/

namespace Sys2Proof.Machine

/-! ### A long store read back -/

/-- The address `k` places after the next one, as in the recursion of `memWriteList`. -/
theorem add_ofNat_succ (a : Word) (k : Nat) : a + BitVec.ofNat 16 (k + 1) = a + 1 + BitVec.ofNat 16 k := by
  rw [Nat.add_comm k 1, BitVec.ofNat_add, ← BitVec.add_assoc]
  rfl

/-- The `j`-th byte written is what its address reads as after, when no later byte of the store lands on it. A store of
at most 16 bytes is `State.memRead_memWriteList_at`. -/
theorem State.memRead_memWriteList_of_ne {s : State} (hm : Memory.wf s.mem = true) (a : Word) (bs : List Byte) {j : Nat}
    (hj : j < bs.length)
    (hne : ∀ k, j < k → k < bs.length → memIndex (a + BitVec.ofNat 16 j) ≠ memIndex (a + BitVec.ofNat 16 k)) :
    (s.memWriteList a bs).memRead (a + BitVec.ofNat 16 j) = bs[j] := by
  induction bs generalizing s a j with
  | nil => exact absurd hj (Nat.not_lt_zero j)
  | cons b bs ih =>
    rw [State.memWriteList, add16_eq]
    cases j with
    | zero =>
      rw [State.memRead_memWriteList_other]
      · exact State.memRead_memWrite_same hm b (by rw [BitVec.add_zero])
      · intro k hk
        rw [← add_ofNat_succ]
        exact hne (k + 1) k.succ_pos (Nat.succ_lt_succ hk)
    | succ j =>
      rw [add_ofNat_succ]
      refine ih (State.wf_memWrite hm a b) (a + 1) (Nat.lt_of_succ_lt_succ hj) fun k hjk hk => ?_
      rw [← add_ofNat_succ, ← add_ofNat_succ]
      exact hne (k + 1) (Nat.succ_lt_succ hjk) (Nat.succ_lt_succ hk)

/-- A ROM that fits is read back verbatim from 0x200 on: its bytes get indices of their own (rule R242). -/
theorem State.memRead_loadRom {s : State} (hm : Memory.wf s.mem = true) {rom : List Byte}
    (hfit : rom.length ≤ Config.romMax) {k : Nat} (hk : k < rom.length) :
    (s.loadRom rom).memRead (0x200 + BitVec.ofNat 16 k) = rom[k] := by
  refine State.memRead_memWriteList_of_ne hm 0x200 rom hk fun l hkl hl => ?_
  rw [memIndex_rom (hk.trans_le hfit), memIndex_rom (hl.trans_le hfit)]
  omega

/-! ### The two outcomes of Reset (rules R241, R243) -/

theorem romWf_iff {rom : List Byte} : romWf rom = true ↔ rom.length ≤ Config.romMax := decide_eq_true_iff

theorem act_reset_of_le {rom : List Byte} (hfit : rom.length ≤ Config.romMax) (s : State) :
    act (.reset rom) s = .next (({ State.reset with draws := s.draws } : State).loadRom rom) :=
  if_pos (romWf_iff.mpr hfit)

theorem act_reset_of_lt {rom : List Byte} (hlong : Config.romMax < rom.length) (s : State) :
    act (.reset rom) s = .fault .loadError :=
  if_neg fun h => hlong.not_ge (romWf_iff.mp h)

/-- Settles O46: Reset branches on the length alone, and a ROM that fits is read back from the new machine. -/
theorem resetLoadsTheRomOrFails : Obligations.ResetLoadsTheRomOrFails :=
  ⟨fun _ s hfit => ⟨_, act_reset_of_le hfit s, fun _ hk =>
      State.memRead_loadRom (s := { State.reset with draws := s.draws }) State.wf_reset hfit hk⟩,
    fun _ s hlong => act_reset_of_lt hlong s⟩

end Sys2Proof.Machine
end

