-- ==== Sys2Proof/Proofs/Encoding.lean ====
section
/-! SUPPORT. Encoding (30_encoding.md): decode and encode are inverse on instruction words, the opcode table selects the words that decode, and the words that decode to no instruction. -/

namespace Sys2Proof

/-! ### Decode after encode -/

/-- Each instruction's format hands every operand back from its own field (rules R71, R72, R75). -/
theorem decode_encode (i : Instr) : decode (encode i) = .instr i := by
  cases i
  case cls | ret => decide
  case jp | call | ldI => simp [encode, decode]
  case seImm | sneImm | ldImm | addImm | rnd => simp [encode, decode]
  case sneReg | drw => simp [encode, decode]
  case ldReg | andReg | xorReg | addReg | subReg | shr => simp [encode, decode, decodeFamily8]
  case skp | sknp => simp [encode, decode, decodeFamilyE]
  case ldVxDt | ldVxK | ldDtVx | ldStVx | addI | ldF | ldB | storeRegs | loadRegs =>
    simp [encode, decode, decodeFamilyF]

/-- Settles O2: the fields of a format's word are the operands that the format was made of. -/
theorem decodingAnEncodedInstructionGivesItBack : Obligations.DecodingAnEncodedInstructionGivesItBack :=
  decode_encode

/-! ### Encode after decode -/

/-- A word is format A of a family and its own `nnn` (rule R72). -/
theorem formatA_of_opField {w : Word} {op : Nibble} (h : (opField w).toNat = op.toNat) :
    formatA op (nnnField w) = w := by
  rw [← BitVec.eq_of_toNat_eq h, formatA_fields]

theorem formatXB_of_opField {w : Word} {op : Nibble} (h : (opField w).toNat = op.toNat) :
    formatXB op (xField w) (nnField w) = w := by
  rw [← BitVec.eq_of_toNat_eq h, formatXB_fields]

theorem formatXYN_of_opField {w : Word} {op : Nibble} (h : (opField w).toNat = op.toNat) :
    formatXYN op (xField w) (yBits w) (nField w) = w := by
  rw [← BitVec.eq_of_toNat_eq h, formatXYN_fields]

theorem formatXYN_of_nField {w : Word} {op n : Nibble} (h : (opField w).toNat = op.toNat)
    (hn : (nField w).toNat = n.toNat) : formatXYN op (xField w) (yBits w) n = w := by
  rw [← BitVec.eq_of_toNat_eq hn, formatXYN_of_opField h]

theorem formatXB_of_nnField {w : Word} {op : Nibble} {nn : Byte} (h : (opField w).toNat = op.toNat)
    (hn : (nnField w).toNat = nn.toNat) : formatXB op (xField w) nn = w := by
  rw [← BitVec.eq_of_toNat_eq hn, formatXB_of_opField h]

theorem encode_of_decodeFamily0 {w : Word} {i : Instr} (h : decodeFamily0 w = .instr i) : encode i = w := by
  unfold decodeFamily0 at h
  split at h
  · next hw => cases h; exact hw.symm
  · split at h
    · next hw => cases h; exact hw.symm
    · cases h

theorem encode_of_decodeFamily8 {w : Word} {i : Instr} (hop : (opField w).toNat = 8)
    (h : decodeFamily8 w = .instr i) : encode i = w := by
  unfold decodeFamily8 at h
  split at h <;> cases h <;> next hn => exact formatXYN_of_nField hop hn

theorem encode_of_decodeFamilyE {w : Word} {i : Instr} (hop : (opField w).toNat = 14)
    (h : decodeFamilyE w = .instr i) : encode i = w := by
  unfold decodeFamilyE at h
  split at h <;> cases h <;> next hn => exact formatXB_of_nnField hop hn

theorem encode_of_decodeFamilyF {w : Word} {i : Instr} (hop : (opField w).toNat = 15)
    (h : decodeFamilyF w = .instr i) : encode i = w := by
  unfold decodeFamilyF at h
  split at h <;> cases h <;> next hn => exact formatXB_of_nnField hop hn

/-- The families, as the decoder splits a word (the `k`-th case is family `k - 1`): the format of each family gives the
word back. -/
theorem encode_of_decode {w : Word} {i : Instr} (h : decode w = .instr i) : encode i = w := by
  have hlt : (opField w).toNat < 16 := (opField w).isLt
  unfold decode at h
  split at h
  case h_1 => exact encode_of_decodeFamily0 h
  case h_2 hop | h_3 hop | h_11 hop => cases h; exact formatA_of_opField hop
  case h_4 hop | h_5 hop | h_7 hop | h_8 hop | h_13 hop => cases h; exact formatXB_of_opField hop
  case h_6 | h_12 => cases h
  case h_9 hop => exact encode_of_decodeFamily8 hop h
  case h_10 hop | h_14 hop => cases h; exact formatXYN_of_opField hop
  case h_15 hop => exact encode_of_decodeFamilyE hop h
  case h_16 =>
    simp only [imp_false] at *
    have hop : (opField w).toNat = 15 := by omega
    exact encode_of_decodeFamilyF hop h

/-- Settles O3: the format of the family a word belongs to, filled with the word's own fields, is the word. -/
theorem encodingADecodedWordGivesItBack : Obligations.EncodingADecodedWordGivesItBack :=
  fun _ _ => encode_of_decode

/-- Settles O1: the decoder evaluated on each of the 29 words. -/
theorem wordsDecodeToTheirInstructions : Obligations.WordsDecodeToTheirInstructions := by
  unfold Obligations.WordsDecodeToTheirInstructions
  decide

/-! ### The opcode table -/

/-- A selected field of a masked word is the field of the word (rule R74). -/
theorem opField_of_and {w mask pattern : Word} (h : w &&& mask = pattern) (hmask : opField mask = 0xF) :
    opField w = opField pattern := by
  have and_fields : opField (w &&& mask) = opField w &&& opField mask := BitVec.extractLsb'_and
  rw [← h, and_fields, hmask, Laws.and_ones4]

theorem nField_of_and {w mask pattern : Word} (h : w &&& mask = pattern) (hmask : nField mask = 0xF) :
    nField w = nField pattern := by
  have and_fields : nField (w &&& mask) = nField w &&& nField mask := BitVec.extractLsb'_and
  rw [← h, and_fields, hmask, Laws.and_ones4]

theorem nnField_of_and {w mask pattern : Word} (h : w &&& mask = pattern) (hmask : nnField mask = 0xFF) :
    nnField w = nnField pattern := by
  have and_fields : nnField (w &&& mask) = nnField w &&& nnField mask := BitVec.extractLsb'_and
  rw [← h, and_fields, hmask, Laws.and_ones8]

/-- A word selected under the mask of the family alone is the format of that family, filled with its own fields. -/
theorem formatA_of_and {w : Word} {op : Nibble} (h : w &&& 0xF000 = op ++ (0 : Addr12)) :
    formatA op (nnnField w) = w := by
  have hop : opField w = op := (opField_of_and h rfl).trans (opField_formatA op 0)
  rw [← hop, formatA_fields]

theorem formatXB_of_and {w : Word} {op : Nibble} (h : w &&& 0xF000 = op ++ (0 : Addr12)) :
    formatXB op (xField w) (nnField w) = w := by
  rw [formatXB_eq, regBits_xField, nnnField_split, formatA_of_and h]

theorem formatXYN_of_and {w : Word} {op : Nibble} (h : w &&& 0xF000 = op ++ (0 : Addr12)) :
    formatXYN op (xField w) (yBits w) (nField w) = w := by
  rw [formatXYN_eq, nnField_split, formatXB_of_and h]

theorem formatXYN_of_and_low {w : Word} {op n : Nibble} (h : w &&& 0xF00F = formatXYN op 0 0 n) :
    formatXYN op (xField w) (yBits w) n = w := by
  have hop : opField w = op := (opField_of_and h rfl).trans (opField_formatXYN op 0 0 n)
  have hn : nField w = n := (nField_of_and h rfl).trans (nField_formatXYN op 0 0 n)
  rw [← hop, ← hn, formatXYN_fields]

theorem formatXB_of_and_byte {w : Word} {op : Nibble} {nn : Byte} (h : w &&& 0xF0FF = formatXB op 0 nn) :
    formatXB op (xField w) nn = w := by
  have hop : opField w = op := (opField_of_and h rfl).trans (opField_formatXB op 0 nn)
  have hnn : nnField w = nn := (nnField_of_and h rfl).trans (nnField_formatXB op 0 nn)
  rw [← hop, ← hnn, formatXB_fields]

/-- A word selected under the full mask is the row's match. -/
theorem eq_of_and_all {w pattern : Word} (h : w &&& 0xFFFF = pattern) : w = pattern := by
  have all_ones : w &&& 0xFFFF = w := BitVec.and_allOnes
  rw [← h, all_ones]

/-- A word that an instruction's row selects is the word of an instruction of that row. -/
theorem exists_encode_of_selected {w : Word} : ∀ i : Instr, w &&& i.row.mask = i.row.pattern →
    ∃ j, encode j = w ∧ j.row = i.row
  | .cls, h => ⟨.cls, (eq_of_and_all h).symm, rfl⟩
  | .ret, h => ⟨.ret, (eq_of_and_all h).symm, rfl⟩
  | .jp _, h => ⟨.jp (nnnField w), formatA_of_and h, rfl⟩
  | .call _, h => ⟨.call (nnnField w), formatA_of_and h, rfl⟩
  | .seImm _ _, h => ⟨.seImm (xField w) (nnField w), formatXB_of_and h, rfl⟩
  | .sneImm _ _, h => ⟨.sneImm (xField w) (nnField w), formatXB_of_and h, rfl⟩
  | .ldImm _ _, h => ⟨.ldImm (xField w) (nnField w), formatXB_of_and h, rfl⟩
  | .addImm _ _, h => ⟨.addImm (xField w) (nnField w), formatXB_of_and h, rfl⟩
  | .ldReg _ _, h => ⟨.ldReg (xField w) (yField w), formatXYN_of_and_low h, rfl⟩
  | .andReg _ _, h => ⟨.andReg (xField w) (yField w), formatXYN_of_and_low h, rfl⟩
  | .xorReg _ _, h => ⟨.xorReg (xField w) (yField w), formatXYN_of_and_low h, rfl⟩
  | .addReg _ _, h => ⟨.addReg (xField w) (yField w), formatXYN_of_and_low h, rfl⟩
  | .subReg _ _, h => ⟨.subReg (xField w) (yField w), formatXYN_of_and_low h, rfl⟩
  | .shr _ _, h => ⟨.shr (xField w) (yBits w), formatXYN_of_and_low h, rfl⟩
  | .sneReg _ _ _, h => ⟨.sneReg (xField w) (yField w) (nField w), formatXYN_of_and h, rfl⟩
  | .ldI _, h => ⟨.ldI (nnnField w), formatA_of_and h, rfl⟩
  | .rnd _ _, h => ⟨.rnd (xField w) (nnField w), formatXB_of_and h, rfl⟩
  | .drw _ _ _, h => ⟨.drw (xField w) (yField w) (nField w), formatXYN_of_and h, rfl⟩
  | .skp _, h => ⟨.skp (xField w), formatXB_of_and_byte h, rfl⟩
  | .sknp _, h => ⟨.sknp (xField w), formatXB_of_and_byte h, rfl⟩
  | .ldVxDt _, h => ⟨.ldVxDt (xField w), formatXB_of_and_byte h, rfl⟩
  | .ldVxK _, h => ⟨.ldVxK (xField w), formatXB_of_and_byte h, rfl⟩
  | .ldDtVx _, h => ⟨.ldDtVx (xField w), formatXB_of_and_byte h, rfl⟩
  | .ldStVx _, h => ⟨.ldStVx (xField w), formatXB_of_and_byte h, rfl⟩
  | .addI _, h => ⟨.addI (xField w), formatXB_of_and_byte h, rfl⟩
  | .ldF _, h => ⟨.ldF (xField w), formatXB_of_and_byte h, rfl⟩
  | .ldB _, h => ⟨.ldB (xField w), formatXB_of_and_byte h, rfl⟩
  | .storeRegs _, h => ⟨.storeRegs (xField w), formatXB_of_and_byte h, rfl⟩
  | .loadRegs _, h => ⟨.loadRegs (xField w), formatXB_of_and_byte h, rfl⟩

/-- Every row of the table is the row of some instruction. -/
theorem exists_row_eq {r : Row} (hr : r ∈ opcodeTable) : ∃ i : Instr, i.row = r := by
  simp only [opcodeTable, List.mem_append, List.mem_cons, List.not_mem_nil, or_false] at hr
  casesm* _ ∨ _
  all_goals exact ⟨_, ‹r = _›.symm⟩

/-- A row of the table selects a word exactly when the word decodes to an instruction of that row. -/
theorem selected_iff_decode {w : Word} {r : Row} (hr : r ∈ opcodeTable) :
    w &&& r.mask = r.pattern ↔ ∃ i, decode w = .instr i ∧ i.row = r := by
  constructor
  · intro h
    obtain ⟨i, rfl⟩ := exists_row_eq hr
    obtain ⟨j, rfl, hj⟩ := exists_encode_of_selected i h
    exact ⟨j, decode_encode j, hj⟩
  · rintro ⟨i, hi, rfl⟩
    rw [← encode_of_decode hi]
    exact beq_iff_eq.mp (Laws.TableRow.every i).1

/-- Settles O4: a selected word is the word of an instruction of the row, and it decodes to one instruction only. -/
theorem decoderAgreesWithTheOpcodeTable : Obligations.DecoderAgreesWithTheOpcodeTable := by
  refine ⟨fun w r hr => selected_iff_decode hr, fun w r q hr hq hwr hwq => ?_⟩
  obtain ⟨i, hi, rfl⟩ := (selected_iff_decode hr).mp hwr
  obtain ⟨j, hj, rfl⟩ := (selected_iff_decode hq).mp hwq
  have same : i = j := Decoded.instr.inj (hi.symm.trans hj)
  rw [same]

/-! ### The words that are no instruction -/

theorem decodeFamily0_eq_unknownSubOpcode {w : Word} :
    decodeFamily0 w = .unknownSubOpcode ↔ w ≠ 0x00E0 ∧ w ≠ 0x00EE := by
  unfold decodeFamily0
  split
  · next h => simp [h]
  · next h => split <;> simp_all

theorem decodeFamily8_eq_unknownSubOpcode {w : Word} :
    decodeFamily8 w = .unknownSubOpcode ↔ (nField w).toNat ∉ [0x0, 0x2, 0x3, 0x4, 0x5, 0x6] := by
  unfold decodeFamily8
  split <;> simp_all

theorem decodeFamilyE_eq_unknownSubOpcode {w : Word} :
    decodeFamilyE w = .unknownSubOpcode ↔ (nnField w).toNat ∉ [0x9E, 0xA1] := by
  unfold decodeFamilyE
  split <;> simp_all

theorem decodeFamilyF_eq_unknownSubOpcode {w : Word} :
    decodeFamilyF w = .unknownSubOpcode ↔
      (nnField w).toNat ∉ [0x07, 0x0A, 0x15, 0x18, 0x1E, 0x29, 0x33, 0x55, 0x65] := by
  unfold decodeFamilyF
  split <;> simp_all

/-- The families with a second dispatch answer no hard failure (rules R77 to R79). -/
theorem decodeFamily0_ne_unknownFamily (w : Word) : decodeFamily0 w ≠ .unknownFamily := by
  unfold decodeFamily0
  split
  · simp
  · split <;> simp

theorem decodeFamily8_ne_unknownFamily (w : Word) : decodeFamily8 w ≠ .unknownFamily := by
  unfold decodeFamily8
  split <;> simp

theorem decodeFamilyE_ne_unknownFamily (w : Word) : decodeFamilyE w ≠ .unknownFamily := by
  unfold decodeFamilyE
  split <;> simp

theorem decodeFamilyF_ne_unknownFamily (w : Word) : decodeFamilyF w ≠ .unknownFamily := by
  unfold decodeFamilyF
  split <;> simp

/-- Families 5 and B, and no other, answer a hard failure (rule R76). -/
theorem decode_eq_unknownFamily {w : Word} :
    decode w = .unknownFamily ↔ (opField w).toNat = 0x5 ∨ (opField w).toNat = 0xB := by
  unfold decode
  split <;> simp_all [decodeFamily0_ne_unknownFamily, decodeFamily8_ne_unknownFamily,
    decodeFamilyE_ne_unknownFamily, decodeFamilyF_ne_unknownFamily]

/-- Only the families with a second dispatch answer a soft failure, each when its dispatch finds no row. -/
theorem decode_eq_unknownSubOpcode {w : Word} :
    decode w = .unknownSubOpcode ↔
      ((opField w).toNat = 0x0 ∧ decodeFamily0 w = .unknownSubOpcode) ∨
      ((opField w).toNat = 0x8 ∧ decodeFamily8 w = .unknownSubOpcode) ∨
      ((opField w).toNat = 0xE ∧ decodeFamilyE w = .unknownSubOpcode) ∨
      ((opField w).toNat = 0xF ∧ decodeFamilyF w = .unknownSubOpcode) := by
  have hlt : (opField w).toNat < 16 := (opField w).isLt
  unfold decode
  split
  case h_16 =>
    simp only [imp_false] at *
    have hop : (opField w).toNat = 0xF := by omega
    simp [hop]
  all_goals simp_all

/-- Settles O5: the classes of the two decoder lemmas above, with the fields as numbers. -/
theorem unknownWordsFallInTheirClasses : Obligations.UnknownWordsFallInTheirClasses := by
  intro w
  rw [← toNat_opField, ← toNat_nField, ← toNat_nnField]
  refine ⟨decode_eq_unknownFamily, decode_eq_unknownSubOpcode.trans ?_⟩
  rw [decodeFamily0_eq_unknownSubOpcode, decodeFamily8_eq_unknownSubOpcode, decodeFamilyE_eq_unknownSubOpcode,
    decodeFamilyF_eq_unknownSubOpcode]

end Sys2Proof
end

