-- ==== Sys2Proof/Proofs/StepOutcomes.lean ====
section
/-! SUPPORT. What a step and the instructions with two outcomes answer in each case, the frames of the named operations, and the statements about the step and its errors (40_control.md, 60_exceptions.md). -/

namespace Sys2Proof.Machine

/-! ### Frames -/

/-- Two frames one after the other, each with its own list. -/
theorem SameBut.append {ps qs : List Part} {s t u : State} (h : SameBut ps s t) (g : SameBut qs t u) :
    SameBut (ps ++ qs) s u :=
  (h.weaken (List.subset_append_left ps qs)).trans (g.weaken (List.subset_append_right ps qs))

theorem sameBut_advance (s : State) : SameBut [.pc] s s.advance := sameBut_setPc s _

theorem sameBut_setSt (s : State) (b : Byte) : SameBut [.st] s (s.setSt b) := by
  apply sameBut_of_fields <;> simp

theorem sameBut_setDisp (s : State) (d : Grid) : SameBut [.disp, .dirty] s (s.setDisp d) := by
  apply sameBut_of_fields <;> simp

/-- A store changes nothing but memory (rule R53). -/
theorem sameBut_memWriteList (s : State) (a : Word) (bs : List Byte) : SameBut [.mem] s (s.memWriteList a bs) := by
  apply sameBut_of_fields <;> simp

theorem sameBut_setRegList (s : State) (k : Nat) (bs : List Byte) : SameBut [.v] s (s.setRegList k bs) := by
  apply sameBut_of_fields <;> simp

theorem sameBut_rndWith (s : State) (r : Byte) (x : Reg) (nn : Byte) : SameBut [.v, .draws] s (rndWith r x nn s) := by
  apply sameBut_of_fields <;> simp

theorem sameBut_tick (s : State) : SameBut [.dt, .st] s s.tick := by
  apply sameBut_of_fields <;> simp

theorem sameBut_frameAck (s : State) : SameBut [.dirty] s s.frameAck := by
  apply sameBut_of_fields <;> simp

/-- A report writes the error record and nothing else (rule R205). -/
theorem sameBut_report (s : State) (c : ErrCause) (w a : Word) : SameBut [.err] s (s.report c w a) := by
  apply sameBut_of_fields <;> simp

/-- The error entry writes the halt latch and the error record and nothing else (rule R206). -/
theorem sameBut_raise (s : State) (c : ErrCause) (w a : Word) : SameBut [.halted, .err] s (s.raise c w a) := by
  apply sameBut_of_fields <;> simp

/-- A successful push changes nothing but the call stack. -/
theorem sameBut_push {s t : State} {ret : Word} (h : s.push? ret = some t) : SameBut [.stack] s t := by
  obtain ⟨hk, rfl⟩ := State.push?_eq_some h
  apply sameBut_of_fields <;> simp

/-- A successful pop changes nothing but the call stack. -/
theorem sameBut_pop {s t : State} {w : Word} (h : s.pop? = some (w, t)) : SameBut [.stack] s t := by
  obtain ⟨hk, h0, rfl, rfl⟩ := State.pop?_eq_some h
  apply sameBut_of_fields <;> simp

/-! ### The instructions with one outcome -/

theorem exec_cls (s : State) : exec .cls s = .next (s.setDisp Grid.clear) := rfl

theorem exec_sneReg (x y : Reg) (n : Nibble) (s : State) :
    exec (.sneReg x y n) s = .next (s.skipIf (s.reg x != s.reg y)) := rfl

theorem exec_shr (x : Reg) (y : Nibble) (s : State) :
    exec (.shr x y) s = .next ((s.setVF (shiftedOutOf (s.reg x))).setReg x (shr8 (s.reg x))) := rfl

theorem exec_rnd (x : Reg) (nn : Byte) (s : State) :
    exec (.rnd x nn) s = .next (rndWith (Config.rnd s.draws) x nn s) := rfl

theorem exec_skp (x : Reg) (s : State) :
    exec (.skp x) s = .next (s.skipIf (s.keyHeld (keyIndex (s.reg x)))) := rfl

theorem exec_sknp (x : Reg) (s : State) :
    exec (.sknp x) s = .next (s.skipIf (!s.keyHeld (keyIndex (s.reg x)))) := rfl

theorem exec_ldStVx (x : Reg) (s : State) : exec (.ldStVx x) s = .next (s.setSt (s.reg x)) := rfl

theorem exec_ldF (x : Reg) (s : State) : exec (.ldF x) s = .next (s.setI (glyphAddr (s.reg x))) := rfl

theorem exec_ldB (x : Reg) (s : State) :
    exec (.ldB x) s = .next (s.memWriteList s.i (bcdDigits (s.reg x))) := rfl

theorem exec_storeRegs (x : Reg) (s : State) :
    exec (.storeRegs x) s = .next ((s.memWriteList s.i (s.regList x)).setI (s.effAddr (x.val + 1))) := rfl

theorem exec_loadRegs (x : Reg) (s : State) :
    exec (.loadRegs x) s =
      .next ((s.setRegList 0 (s.operandBytes (x.val + 1))).setI (s.effAddr (x.val + 1))) := rfl

/-! ### The instructions with two outcomes -/

theorem exec_ret_of_pop_none {s : State} (h : s.pop? = none) :
    exec .ret s = .next (s.raise .stackUnderflow (encode .ret) s.fetchedFrom) := by
  simp [exec, execRet, h]

theorem exec_ret_of_pop_some {s t : State} {w : Word} (h : s.pop? = some (w, t)) :
    exec .ret s = .next (t.setPc w) := by
  simp [exec, execRet, h]

theorem exec_call_of_push_none {s : State} {nnn : Addr12} (h : s.push? s.pc = none) :
    exec (.call nnn) s = .next (s.raise .stackOverflow (encode (.call nnn)) s.fetchedFrom) := by
  simp [exec, execCall, h]

theorem exec_call_of_push_some {s t : State} {nnn : Addr12} (h : s.push? s.pc = some t) :
    exec (.call nnn) s = .next (t.setPc (immAddr nnn)) := by
  simp [exec, execCall, h]

theorem exec_ldVxK_of_none {s : State} {x : Reg} (h : s.leastKey? = none) :
    exec (.ldVxK x) s = .next (s.setPc (add16 s.pc 0xFFFE)) := by
  simp [exec, execLdVxK, h]

theorem exec_ldVxK_of_some {s : State} {x : Reg} {k : Fin Config.nKeys} (h : s.leastKey? = some k) :
    exec (.ldVxK x) s = .next (s.setReg x (BitVec.ofNat 8 k.val)) := by
  simp [exec, execLdVxK, h]

/-- Every meaning answers a next state: one outcome for most, two for 00EE, 2nnn and Fx0A. -/
theorem exec_answers (i : Instr) (s : State) : ∃ t, exec i s = .next t := by
  cases i
  case ret =>
    cases h : s.pop? with
    | none => exact ⟨_, exec_ret_of_pop_none h⟩
    | some p => exact ⟨_, exec_ret_of_pop_some h⟩
  case call nnn =>
    cases h : s.push? s.pc with
    | none => exact ⟨_, exec_call_of_push_none h⟩
    | some t => exact ⟨_, exec_call_of_push_some h⟩
  case ldVxK x =>
    cases h : s.leastKey? with
    | none => exact ⟨_, exec_ldVxK_of_none h⟩
    | some k => exact ⟨_, exec_ldVxK_of_some h⟩
  all_goals exact ⟨_, rfl⟩

/-! ### The step -/

theorem step_of_halted {s : State} (h : s.halted = true) : step s = .next s := by
  simp [step, h]

theorem step_of_instr {s : State} {i : Instr} (h : s.halted = false) (hf : s.fetched = .instr i) :
    step s = exec i s.advance := by
  simp [step, h, hf]

theorem step_of_unknownSubOpcode {s : State} (h : s.halted = false) (hf : s.fetched = .unknownSubOpcode) :
    step s = .next (s.advance.softFailure s.fetchWord s.pc) := by
  simp [step, h, hf]

theorem step_of_unknownFamily {s : State} (h : s.halted = false) (hf : s.fetched = .unknownFamily) :
    step s = .next (s.advance.hardFailure s.fetchWord s.pc) := by
  simp [step, h, hf]

/-- What is fetched is the decoding of the fetched word. -/
theorem State.decode_fetchWord (s : State) : decode s.fetchWord = s.fetched := rfl

/-- The encoding of the fetched instruction is the fetched word. -/
theorem State.encode_fetched {s : State} {i : Instr} (h : s.fetched = .instr i) : encode i = s.fetchWord :=
  encode_of_decode h

theorem step_answers (s : State) : ∃ t, step s = .next t := by
  cases hh : s.halted with
  | true => exact ⟨s, step_of_halted hh⟩
  | false =>
    cases hf : s.fetched with
    | instr i => rw [step_of_instr hh hf]; exact exec_answers i s.advance
    | unknownSubOpcode => exact ⟨_, step_of_unknownSubOpcode hh hf⟩
    | unknownFamily => exact ⟨_, step_of_unknownFamily hh hf⟩

/-- Settles O12: the step answers a state on each path, halted, instruction or unknown word. -/
theorem everyStepAnswersAState : Obligations.EveryStepAnswersAState := step_answers

/-- Settles O6: the word in the statement is the fetched word, and the state the one the fetch leaves. -/
theorem stepRunsTheDecodedInstruction : Obligations.StepRunsTheDecodedInstruction :=
  fun _ _ hh hf => step_of_instr hh hf

/-- Settles O11: the step looks at the halt latch first. -/
theorem haltedStepChangesNothing : Obligations.HaltedStepChangesNothing :=
  fun _ h => step_of_halted h

/-! ### The errors -/

/-- The error entry after a fetch, as the status export shows it, with its frame (rules R206, R218). -/
theorem raise_advance_spec (s : State) (c : ErrCause) (w a : Word) :
    (s.advance.raise c w a).statusExport = (true, c.code, w, a) ∧ (s.advance.raise c w a).pc = s.pc + 2 ∧
      SameBut [.pc, .halted, .err] s (s.advance.raise c w a) :=
  ⟨rfl, rfl, (sameBut_advance s).append (sameBut_raise _ c w a)⟩

/-- Settles O7: the soft failure is a report on the state after the fetch. -/
theorem unknownSubOpcodeIsReportedAndSkipped : Obligations.UnknownSubOpcodeIsReportedAndSkipped := by
  intro s hh hf
  have running : (s.advance.softFailure s.fetchWord s.pc).statusExport = (false, 1, s.fetchWord, s.pc) := by
    simp [State.statusExport, State.softFailure, ErrCause.code, hh]
  exact ⟨_, step_of_unknownSubOpcode hh hf, running, rfl, (sameBut_advance s).append (sameBut_report _ _ _ _)⟩

/-- Settles O8: the hard failure is the error entry on the state after the fetch. -/
theorem unknownFamilyHaltsTheCore : Obligations.UnknownFamilyHaltsTheCore :=
  fun s hh hf => ⟨_, step_of_unknownFamily hh hf, raise_advance_spec s .unknownFamily s.fetchWord s.pc⟩

/-- Settles O9: the pop fails, and the word and address that 00EE records are those of the fetch. -/
theorem returnOnEmptyStackHaltsTheCore : Obligations.ReturnOnEmptyStackHaltsTheCore := by
  intro s hh hf h0
  have underflow : step s = .next (s.advance.raise .stackUnderflow s.fetchWord s.pc) := by
    rw [step_of_instr hh hf, exec_ret_of_pop_none (s := s.advance) (State.pop?_eq_none.mpr h0), State.encode_fetched hf,
      State.fetchedFrom_advance]
  exact ⟨_, underflow, raise_advance_spec s .stackUnderflow s.fetchWord s.pc⟩

/-- Settles O10: the push fails, and the word and address that 2nnn records are those of the fetch. -/
theorem callOnFullStackHaltsTheCore : Obligations.CallOnFullStackHaltsTheCore := by
  intro s nnn hh hf hfull
  have overflow : step s = .next (s.advance.raise .stackOverflow s.fetchWord s.pc) := by
    rw [step_of_instr hh hf, exec_call_of_push_none (s := s.advance) (State.push?_eq_none.mpr hfull),
      State.encode_fetched hf, State.fetchedFrom_advance]
  exact ⟨_, overflow, raise_advance_spec s .stackOverflow s.fetchWord s.pc⟩

/-! ### Steps that answer the state they start from -/

@[simp] theorem State.advance_setPc_self (s : State) : s.advance.setPc s.pc = s := rfl

/-- Settles O39: the poll takes back the 2 that the fetch added to `PC`. -/
theorem keyWaitPollChangesNothing : Obligations.KeyWaitPollChangesNothing := by
  intro x s hh hf hkeys
  have no_key : s.advance.leastKey? = none := State.leastKey?_eq_none.mpr hkeys
  have taken_back : add16 s.advance.pc 0xFFFE = s.pc := s.fetchedFrom_advance
  rw [step_of_instr hh hf, exec_ldVxK_of_none no_key, taken_back, State.advance_setPc_self]

/-- Settles O57: the jump writes back the `PC` that the fetch read from. -/
theorem selfJumpIsAFixedPoint : Obligations.SelfJumpIsAFixedPoint := by
  rintro s hh ⟨nnn, hf, hpc⟩
  have target : immAddr nnn = s.pc := hpc.symm
  rw [step_of_instr hh hf, exec_jp, target, State.advance_setPc_self]

end Sys2Proof.Machine
end

