-- ==== Sys2Proof/Proofs/Invariant.lean ====
section
/-! SUPPORT. The invariant `Inv` (10_state.md section 7, 60_exceptions.md sections 1 to 3): what it depends on, that it holds at reset, and that every step and every host operation keeps it. -/

namespace Sys2Proof.Machine

/-! ### What the invariant depends on -/

/-- The invariant carries over to a state that differs in no field that it speaks of, given canonical memory. -/
theorem Inv.of_fields {s t : State} (hs : Inv s) (hm : Memory.wf t.mem = true) (hh : t.halted = s.halted)
    (he : t.err = s.err) (hsp : t.sp = s.sp) (hpc : t.pc = s.pc) : Inv t where
  memory := hm
  latch := by rw [hh, he]; exact hs.latch
  noError := by rw [he]; exact hs.noError
  subOpcode := by rw [he]; exact hs.subOpcode
  family := by rw [he]; exact hs.family
  underflow := by rw [he, hsp]; exact hs.underflow
  overflow := by rw [he, hsp]; exact hs.overflow
  precise := by rw [hh, he, hpc]; exact hs.precise

/-- While the core runs the recorded error is not a halting one, so the clauses about `PC` and the stack are void: they
may change freely. -/
theorem Inv.of_running {s t : State} (hs : Inv s) (hrun : s.halted = false) (hm : Memory.wf t.mem = true)
    (hh : t.halted = s.halted) (he : t.err = s.err) : Inv t := by
  have no_halt : t.err.cause.halts = false := by rw [he, ← hs.latch, hrun]
  exact {
    memory := hm
    latch := by rw [hh, he]; exact hs.latch
    noError := by rw [he]; exact hs.noError
    subOpcode := by rw [he]; exact hs.subOpcode
    family := by rw [he]; exact hs.family
    underflow := fun hc => by simp [hc, ErrCause.halts] at no_halt
    overflow := fun hc => by simp [hc, ErrCause.halts] at no_halt
    precise := fun hc => by simp [hh, hrun] at hc }

/-! ### The errors establish it -/

/-- A report of a soft failure, with the word that is none (rules R201, R205). -/
theorem inv_softFailure {s : State} {w a : Word} (hm : Memory.wf s.mem = true) (hrun : s.halted = false)
    (hw : decode w = .unknownSubOpcode) : Inv (s.softFailure w a) := by
  constructor <;> simp [State.softFailure, ErrCause.halts, hm, hrun, hw]

/-- A hard failure, with the word that is none (rules R202, R206). -/
theorem inv_hardFailure {s : State} {w a : Word} (hm : Memory.wf s.mem = true) (hw : decode w = .unknownFamily)
    (hpc : s.pc = a + 2) : Inv (s.hardFailure w a) := by
  constructor <;> simp [State.hardFailure, ErrCause.halts, hm, hw, hpc]

/-- A stack underflow, recorded with the word of 00EE on an empty stack (rules R203, R206). -/
theorem inv_stackUnderflow {s : State} {a : Word} (hm : Memory.wf s.mem = true) (hsp : s.sp.val = 0)
    (hpc : s.pc = a + 2) : Inv (s.raise .stackUnderflow (encode .ret) a) := by
  constructor <;> simp [ErrCause.halts, decode_encode, hm, hsp, hpc]

/-- A stack overflow, recorded with the word of a 2nnn on a full stack (rules R204, R206). -/
theorem inv_stackOverflow {s : State} {nnn : Addr12} {a : Word} (hm : Memory.wf s.mem = true)
    (hsp : s.sp.val = Config.stackDepth) (hpc : s.pc = a + 2) :
    Inv (s.raise .stackOverflow (encode (.call nnn)) a) := by
  constructor <;> simp [ErrCause.halts, decode_encode, hm, hsp, hpc]

/-! ### The step keeps it -/

/-- The fetch left `PC` 2 past the address that the running instruction was fetched from (log 20). -/
theorem State.pc_eq_fetchedFrom_add (s : State) : s.pc = s.fetchedFrom + 2 := by
  simp [State.fetchedFrom, BitVec.add_assoc]

/-- A meaning on a running core either leaves latch and record alone or records one of the two stack errors. -/
theorem Inv.exec {i : Instr} {s t : State} (hs : Inv s) (hrun : s.halted = false) (h : exec i s = .next t) : Inv t := by
  obtain ⟨hh, he⟩ | ⟨rfl, hsp, rfl⟩ | ⟨nnn, rfl, hsp, rfl⟩ := exec_errors h
  · exact hs.of_running hrun (exec_keeps_wf h hs.memory) hh he
  · exact inv_stackUnderflow hs.memory hsp s.pc_eq_fetchedFrom_add
  · exact inv_stackOverflow hs.memory hsp s.pc_eq_fetchedFrom_add

/-- The fetch keeps the invariant of a running core. -/
theorem Inv.advance {s : State} (hs : Inv s) (hrun : s.halted = false) : Inv s.advance :=
  hs.of_running hrun hs.memory rfl rfl

theorem Inv.step {s t : State} (hs : Inv s) (h : step s = .next t) : Inv t := by
  obtain ⟨-, rfl⟩ | ⟨hrun, i, -, he⟩ | ⟨hrun, hf, rfl⟩ | ⟨-, hf, rfl⟩ := step_cases h
  · exact hs
  · exact (hs.advance hrun).exec hrun he
  · exact inv_softFailure hs.memory hrun (s.decode_fetchWord.trans hf)
  · exact inv_hardFailure hs.memory (s.decode_fetchWord.trans hf) rfl

/-- Settles O50: the four ways of a step, each of which keeps or establishes the clauses of the invariant. -/
theorem stepKeepsTheInvariant : Obligations.StepKeepsTheInvariant := fun _ _ => Inv.step

/-! ### The host's operations keep it -/

/-- Settles O49: no cell is listed and no error recorded. -/
theorem resetMeetsTheInvariant : Obligations.ResetMeetsTheInvariant := by
  constructor <;> simp [State.reset, Memory.wf, Memory.wfFrom, ErrCause.halts]

/-- A Reset answers a new machine with the ROM in memory, when it answers one. -/
theorem act_reset_eq_next {rom : List Byte} {s t : State} (h : act (.reset rom) s = .next t) :
    t = ({ State.reset with draws := s.draws } : State).loadRom rom := by
  by_cases hfit : rom.length ≤ Config.romMax
  · rw [act_reset_of_le hfit] at h
    cases h
    rfl
  · rw [act_reset_of_lt (Nat.lt_of_not_le hfit)] at h
    cases h

/-- A store of bytes keeps the invariant. -/
theorem Inv.memWriteList {s : State} (hs : Inv s) (a : Word) (bs : List Byte) : Inv (s.memWriteList a bs) := by
  apply hs.of_fields (State.wf_memWriteList hs.memory a bs) <;> simp

theorem inv_loadRom (rom : List Byte) (n : Nat) : Inv (({ State.reset with draws := n } : State).loadRom rom) :=
  Inv.memWriteList (s := { State.reset with draws := n })
    (resetMeetsTheInvariant.of_fields State.wf_reset rfl rfl rfl rfl) _ rom

theorem Inv.act {op : HostOp} {s t : State} (hs : Inv s) (h : act op s = .next t) : Inv t := by
  cases op with
  | reset rom => rw [act_reset_eq_next h]; exact inv_loadRom rom s.draws
  | step => exact hs.step h
  | tick => cases h; exact hs.of_fields hs.memory rfl rfl rfl rfl
  | keySet k v => cases h; exact hs.of_fields hs.memory rfl rfl rfl rfl
  | frameAck => cases h; exact hs.of_fields hs.memory rfl rfl rfl rfl

/-- A list that answers a state answers it by its first operation and then by the others. -/
theorem runOps_cons_eq_next {op : HostOp} {ops : List HostOp} {s u : State} :
    runOps (op :: ops) s = .next u ↔ ∃ t, act op s = .next t ∧ runOps ops t = .next u := by
  rw [runOps]
  cases act op s <;> simp

/-- What each operation of a list keeps, the whole list keeps. -/
theorem runOps_keeps {P : State → Prop} {ops : List HostOp}
    (hact : ∀ op ∈ ops, ∀ s t, P s → act op s = .next t → P t) {s t : State} (hs : P s)
    (h : runOps ops s = .next t) : P t := by
  induction ops generalizing s with
  | nil => cases h; exact hs
  | cons op ops ih =>
    obtain ⟨u, hu, ht⟩ := runOps_cons_eq_next.mp h
    exact ih (fun q hq => hact q (List.mem_cons_of_mem op hq)) (hact op List.mem_cons_self s u hs hu) ht

/-- Settles O51: each operation keeps the invariant, so every list of them does. -/
theorem hostOperationsKeepTheInvariant : Obligations.HostOperationsKeepTheInvariant :=
  fun _ _ _ hs h => runOps_keeps (fun _ _ _ _ hp ha => hp.act ha) hs h

end Sys2Proof.Machine
end

