-- ==== Sys2Proof/Proofs/HostStatus.lean ====
section
/-! SUPPORT. Noninterference of the host's status (10_state.md sections 5 and 7): a step of a state with other values of DIRTY, ERR and ST answers what the step answers, but for those three. -/

namespace Sys2Proof.Machine

/-- The state with any values of DIRTY, ERR and ST, which no instruction reads. -/
def State.withStatus (s : State) (d : Bool) (e : ErrRecord) (b : Byte) : State :=
  { s with dirty := d, err := e, st := b }

theorem sameBut_withStatus (s : State) (d : Bool) (e : ErrRecord) (b : Byte) :
    SameBut [.dirty, .err, .st] s (s.withStatus d e b) := by
  apply sameBut_of_fields <;> simp [State.withStatus]

/-! ### The operations with a recursion or a branch commute with a change of the status -/

theorem State.withStatus_skipIf (s : State) (c : Bool) (d : Bool) (e : ErrRecord) (b : Byte) :
    (s.withStatus d e b).skipIf c = (s.skipIf c).withStatus d e b := by
  cases c <;> rfl

theorem State.withStatus_memWriteList (s : State) (a : Word) (bs : List Byte) (d : Bool) (e : ErrRecord) (b : Byte) :
    (s.withStatus d e b).memWriteList a bs = (s.memWriteList a bs).withStatus d e b := by
  induction bs generalizing s a with
  | nil => rfl
  | cons c bs ih => exact ih (s.memWrite a c) (add16 a 1)

theorem State.withStatus_setRegList (s : State) (k : Nat) (bs : List Byte) (d : Bool) (e : ErrRecord) (b : Byte) :
    (s.withStatus d e b).setRegList k bs = (s.setRegList k bs).withStatus d e b := by
  induction bs generalizing s k with
  | nil => rfl
  | cons c bs ih =>
    simp only [State.setRegList]
    split
    · next hk => exact ih (s.setReg ⟨k, hk⟩ c) (k + 1)
    · exact ih s (k + 1)

/-! ### The step -/

/-- Every meaning answers, on a state with another status, its answer with some status: the three fields go through
unread, or are written over. -/
theorem exec_withStatus {i : Instr} {s t : State} (h : exec i s = .next t) (d : Bool) (e : ErrRecord) (b : Byte) :
    ∃ d' e' b', exec i (s.withStatus d e b) = .next (t.withStatus d' e' b') := by
  cases i
  case ret =>
    obtain ⟨h0, rfl⟩ | ⟨h0, hk, rfl⟩ := execRet_cases h
    · exact ⟨d, _, b, exec_ret_of_pop_none (s := s.withStatus d e b) (State.pop?_eq_none.mpr h0)⟩
    · exact ⟨d, e, b, exec_ret_of_pop_some (State.pop?_of_pos (s := s.withStatus d e b) h0 hk)⟩
  case call nnn =>
    obtain ⟨hfull, rfl⟩ | ⟨hk, rfl⟩ := execCall_cases h
    · exact ⟨d, _, b, exec_call_of_push_none (s := s.withStatus d e b) (State.push?_eq_none.mpr hfull)⟩
    · exact ⟨d, e, b, exec_call_of_push_some (State.push?_of_lt (s := s.withStatus d e b) hk)⟩
  case ldVxK x =>
    obtain ⟨hn, rfl⟩ | ⟨k, hk, rfl⟩ := execLdVxK_cases h
    · exact ⟨d, e, b, exec_ldVxK_of_none (s := s.withStatus d e b) hn⟩
    · exact ⟨d, e, b, exec_ldVxK_of_some (s := s.withStatus d e b) hk⟩
  case seImm | sneImm | sneReg | skp | sknp =>
    cases h
    exact ⟨d, e, b, congrArg _ (State.withStatus_skipIf ..)⟩
  case ldB x =>
    cases h
    exact ⟨d, e, b, congrArg _ (State.withStatus_memWriteList ..)⟩
  case storeRegs x =>
    cases h
    refine ⟨d, e, b, ?_⟩
    rw [exec_storeRegs, State.withStatus_memWriteList]
    rfl
  case loadRegs x =>
    cases h
    refine ⟨d, e, b, ?_⟩
    rw [exec_loadRegs, State.withStatus_setRegList]
    rfl
  case cls | drw => cases h; exact ⟨true, e, b, rfl⟩
  case ldStVx x => cases h; exact ⟨d, e, s.reg x, rfl⟩
  all_goals cases h; exact ⟨d, e, b, rfl⟩

/-- The step on a state with another status: halted, fetch and decoding are the same, and so is the meaning's answer. -/
theorem step_withStatus {s t : State} (h : step s = .next t) (d : Bool) (e : ErrRecord) (b : Byte) :
    ∃ d' e' b', step (s.withStatus d e b) = .next (t.withStatus d' e' b') := by
  obtain ⟨hh, rfl⟩ | ⟨hh, i, hf, he⟩ | ⟨hh, hf, rfl⟩ | ⟨hh, hf, rfl⟩ := step_cases h
  · exact ⟨d, e, b, step_of_halted (s := t.withStatus d e b) hh⟩
  · obtain ⟨d', e', b', he'⟩ := exec_withStatus he d e b
    exact ⟨d', e', b', (step_of_instr (s := s.withStatus d e b) hh hf).trans he'⟩
  · exact ⟨d, _, b, step_of_unknownSubOpcode (s := s.withStatus d e b) hh hf⟩
  · exact ⟨d, _, b, step_of_unknownFamily (s := s.withStatus d e b) hh hf⟩

/-- Settles O54: the other step answers the same state with some values of DIRTY, ERR and ST. -/
theorem hostStatusIsInvisibleToPrograms : Obligations.HostStatusIsInvisibleToPrograms := by
  intro s t d e b h
  obtain ⟨d', e', b', hu⟩ := step_withStatus h d e b
  exact ⟨_, hu, sameBut_withStatus t d' e' b'⟩

end Sys2Proof.Machine
end

