-- ==== Sys2Proof/Proofs/AccessSummary.lean ====
section
/-! SUPPORT. The access summary of 10_state.md section 9: no meaning changes a part of the state, or a general register, outside its list of writes. -/

namespace Sys2Proof.Machine

/-- Every meaning is a chain of writes to the parts that the summary lists for it; its frame is that of the chain. -/
theorem exec_frame {i : Instr} {s t : State} (h : exec i s = .next t) : SameBut (partsWritten i) s t := by
  cases i
  case ret =>
    obtain ⟨-, rfl⟩ | ⟨h0, hk, rfl⟩ := execRet_cases h
    · exact (sameBut_raise s _ _ _).weaken (by simp [partsWritten])
    · exact ((sameBut_pop (State.pop?_of_pos h0 hk)).append (sameBut_setPc _ _)).weaken (by simp [partsWritten])
  case call nnn =>
    obtain ⟨-, rfl⟩ | ⟨hk, rfl⟩ := execCall_cases h
    · exact (sameBut_raise s _ _ _).weaken (by simp [partsWritten])
    · exact ((sameBut_push (State.push?_of_lt hk)).append (sameBut_setPc _ _)).weaken (by simp [partsWritten])
  case ldVxK x =>
    obtain ⟨-, rfl⟩ | ⟨k, -, rfl⟩ := execLdVxK_cases h
    · exact (sameBut_setPc s _).weaken (by simp [partsWritten])
    · exact (sameBut_setReg s x _).weaken (by simp [partsWritten])
  all_goals cases h
  case jp => exact sameBut_setPc s _
  case seImm | sneImm | sneReg | skp | sknp => exact sameBut_skipIf s _
  case ldImm | addImm | ldReg | andReg | xorReg | ldVxDt => exact sameBut_setReg s _ _
  case addReg | subReg => exact sameBut_setReg_setVF s _ _ _
  case shr => exact (sameBut_setVF s _).trans (sameBut_setReg _ _ _)
  case rnd => exact sameBut_rndWith s _ _ _
  case cls => exact sameBut_setDisp s _
  case drw => exact (sameBut_setVF s _).append (sameBut_setDisp _ _)
  case ldI | addI | ldF => exact sameBut_setI s _
  case ldDtVx => exact sameBut_setDt s _
  case ldStVx => exact sameBut_setSt s _
  case ldB => exact sameBut_memWriteList s _ _
  case storeRegs => exact (sameBut_memWriteList s _ _).append (sameBut_setI _ _)
  case loadRegs => exact (sameBut_setRegList s _ _).append (sameBut_setI _ _)

/-- Settles O52: the frame of each meaning. -/
theorem instructionsChangeOnlyWhatTheyMayWrite : Obligations.InstructionsChangeOnlyWhatTheyMayWrite :=
  fun _ _ _ => exec_frame

/-- The write of one register changes that one alone. -/
theorem eq_of_reg_setReg_ne {s : State} {x r : Reg} {b : Byte} (h : (s.setReg x b).reg r ≠ s.reg r) : r = x := by
  by_contra hr
  exact h (s.reg_setReg_other b hr)

/-- A result and its flag, in either order, change the register of the result and VF alone. -/
theorem eq_of_reg_setReg_setReg_ne {s : State} {x y r : Reg} {b c : Byte}
    (h : ((s.setReg x b).setReg y c).reg r ≠ s.reg r) : r = y ∨ r = x := by
  by_contra hr
  obtain ⟨hy, hx⟩ := not_or.mp hr
  exact h ((State.reg_setReg_other _ c hy).trans (s.reg_setReg_other b hx))

/-- A list written from `V[0]` on changes no register past its length. -/
theorem lt_of_reg_setRegList_ne {s : State} {bs : List Byte} {r : Reg} (h : (s.setRegList 0 bs).reg r ≠ s.reg r) :
    r.val < bs.length := by
  by_contra hr
  exact h (by rw [State.reg_setRegList, dif_neg fun hin => hr hin.2])

/-- A meaning that does not list the registers changes none; each of the others writes the registers it may. -/
theorem mayWriteReg_of_ne {i : Instr} {s t : State} {r : Reg} (h : exec i s = .next t) (hne : t.reg r ≠ s.reg r) :
    mayWriteReg i r := by
  have listed : Part.v ∈ partsWritten i := by
    by_contra hv
    exact hne (exec_frame h .v hv r)
  cases i
  case ldVxK x =>
    obtain ⟨-, rfl⟩ | ⟨k, -, rfl⟩ := execLdVxK_cases h
    · exact absurd (State.reg_of_v (s.setPc_v _) r) hne
    · exact eq_of_reg_setReg_ne hne
  case ldImm | addImm | ldReg | andReg | xorReg | ldVxDt => cases h; exact eq_of_reg_setReg_ne hne
  case rnd x nn =>
    cases h
    by_contra hr
    exact hne ((s.reg_rndWith _ x r nn).trans (if_neg hr))
  case drw => cases h; exact eq_of_reg_setReg_ne (s := s) hne
  case addReg | subReg => cases h; exact (eq_of_reg_setReg_setReg_ne hne).symm
  case shr => cases h; exact eq_of_reg_setReg_setReg_ne hne
  case loadRegs x =>
    cases h
    have below : r.val < (s.operandBytes (x.val + 1)).length := lt_of_reg_setRegList_ne (s := s) hne
    rw [State.length_operandBytes] at below
    exact Nat.le_of_lt_succ below
  all_goals simp [partsWritten] at listed

/-- Settles O53: the register a meaning changes is one that it may write. -/
theorem instructionsWriteOnlyTheirRegisters : Obligations.InstructionsWriteOnlyTheirRegisters :=
  fun _ _ _ _ => mayWriteReg_of_ne

end Sys2Proof.Machine
end

