-- ==== Sys2Proof/Proofs/MemoryTransfer.lean ====
section
/-! SUPPORT. The transfers between registers and memory (42_index_memory.md): the bytes that Fx33, Fx55 and Fx65 move, read back, and the statements about them. -/

namespace Sys2Proof.Machine

/-! ### The moved `I` and the stored bytes -/

/-- `I` past `k` bytes, as a number (rules R54, R144, R145). -/
theorem State.toNat_effAddr (s : State) (k : Nat) : (s.effAddr k).toNat = (s.i.toNat + k) % 65536 := by
  simp [State.effAddr]

/-- The frame of a store from `I` on: any address outside its bytes reads as before. -/
theorem State.memRead_store_other (s : State) (bs : List Byte) {a : Word}
    (h : ∀ k < bs.length, memIndex a ≠ memIndex (s.effAddr k)) : (s.memWriteList s.i bs).memRead a = s.memRead a :=
  s.memRead_memWriteList_other s.i bs h

/-- Each register that Fx55 stores is read back at its address, across both wraps. -/
theorem State.memRead_store_regList {s : State} (hm : Memory.wf s.mem = true) {x r : Reg} (hr : r ≤ x) :
    (s.memWriteList s.i (s.regList x)).memRead (s.i + BitVec.ofNat 16 r.val) = s.reg r := by
  have hle : r.val ≤ x.val := hr
  have fits : (s.regList x).length ≤ 16 := by rw [State.length_regList]; omega
  have hlt : r.val < (s.regList x).length := by rw [State.length_regList]; omega
  rw [State.memRead_memWriteList_at hm s.i _ fits hlt, State.getElem_regList]

/-! ### Fx33 -/

@[simp] theorem length_bcdDigits (a : Byte) : (bcdDigits a).length = 3 := rfl

/-- The hundreds, tens and ones digit of a byte as numbers (rule R143): each fits in a byte. -/
theorem toNat_bcdDigits (a : Byte) :
    ((bcdDigits a)[0]'(by simp)).toNat = a.toNat / 100 ∧ ((bcdDigits a)[1]'(by simp)).toNat = a.toNat / 10 % 10 ∧
      ((bcdDigits a)[2]'(by simp)).toNat = a.toNat % 10 := by
  have ha := a.isLt
  refine ⟨Nat.mod_eq_of_lt ?_, Nat.mod_eq_of_lt ?_, Nat.mod_eq_of_lt ?_⟩ <;> omega

/-- Each digit that Fx33 stores is read back at its address, across both wraps. -/
theorem State.memRead_store_bcdDigits {s : State} (hm : Memory.wf s.mem = true) (a : Byte) {k : Nat} (hk : k < 3) :
    (s.memWriteList s.i (bcdDigits a)).memRead (s.i + BitVec.ofNat 16 k) = (bcdDigits a)[k]'hk :=
  State.memRead_memWriteList_at hm s.i _ (by simp) hk

/-- Settles O28: a store of the three digits, each read back at its own address. -/
theorem bcdStoresThreeDigits : Obligations.BcdStoresThreeDigits := by
  intro x s hm
  obtain ⟨hundreds, tens, ones⟩ := toNat_bcdDigits (s.reg x)
  have stored {k : Nat} (hk : k < 3) := State.memRead_store_bcdDigits hm (s.reg x) hk
  have at_I := stored (k := 0) (by decide)
  rw [BitVec.add_zero] at at_I
  refine ⟨_, exec_ldB x s, ?_, ?_, ?_, fun a ha => s.memRead_store_other _ ha, sameBut_memWriteList s _ _⟩
  · rw [at_I, hundreds]
  · exact (congrArg BitVec.toNat (stored (k := 1) (by decide))).trans tens
  · exact (congrArg BitVec.toNat (stored (k := 2) (by decide))).trans ones

/-! ### Fx55 -/

/-- Settles O29: a store of the register list, read back register by register, and one write to `I`. -/
theorem storeRegistersWritesThemFromIOn : Obligations.StoreRegistersWritesThemFromIOn := by
  intro x s hm
  refine ⟨_, exec_storeRegs x s, fun r hr => State.memRead_store_regList hm hr, fun a ha => ?_,
    s.toNat_effAddr (x.val + 1), (sameBut_memWriteList s _ _).append (sameBut_setI _ _)⟩
  exact s.memRead_store_other (s.regList x) (by rwa [State.length_regList])

/-- Settles O32: the two bytes at `PC` are the `k`-th and the next of the stored registers. -/
theorem storeIsSeenByTheNextFetch : Obligations.StoreIsSeenByTheNextFetch := by
  intro x k hk s hm hpc
  have next_address : s.pc + 1 = s.i + BitVec.ofNat 16 (k + 1) := by
    rw [hpc, BitVec.ofNat_add, ← BitVec.add_assoc]
    rfl
  have high : (s.memWriteList s.i (s.regList x)).memRead s.pc = s.reg ⟨k, by omega⟩ := by
    rw [hpc]
    exact State.memRead_store_regList hm (r := ⟨k, by omega⟩) (Nat.le_of_succ_le hk)
  have low : (s.memWriteList s.i (s.regList x)).memRead (s.pc + 1) = s.reg ⟨k + 1, by omega⟩ := by
    rw [next_address]
    exact State.memRead_store_regList hm (r := ⟨k + 1, by omega⟩) hk
  refine ⟨_, exec_storeRegs x s, by simp, ?_⟩
  rw [← high, ← low, ← State.memWriteList_pc s s.i (s.regList x)]
  rfl

/-! ### Fx65 -/

/-- What every register holds after Fx65. -/
theorem State.reg_load (s : State) (x r : Reg) :
    (s.setRegList 0 (s.operandBytes (x.val + 1))).reg r =
      if r ≤ x then s.memRead (s.i + BitVec.ofNat 16 r.val) else s.reg r := by
  rw [State.reg_setRegList]
  by_cases hr : r ≤ x
  · have hle : r.val ≤ x.val := hr
    have hin : 0 ≤ r.val ∧ r.val - 0 < (s.operandBytes (x.val + 1)).length := by simp; omega
    rw [dif_pos hin, if_pos hr, State.getElem_operandBytes, Nat.sub_zero]
  · have hgt : ¬ r.val ≤ x.val := hr
    have hout : ¬ (0 ≤ r.val ∧ r.val - 0 < (s.operandBytes (x.val + 1)).length) := by simp; omega
    rw [dif_neg hout, if_neg hr]

/-- Settles O30: a write of the register list read from memory, and one write to `I`. -/
theorem loadRegistersReadsThemFromIOn : Obligations.LoadRegistersReadsThemFromIOn :=
  fun x s => ⟨_, exec_loadRegs x s, fun r => s.reg_load x r, s.toNat_effAddr (x.val + 1),
    (sameBut_setRegList s _ _).append (sameBut_setI _ _)⟩

/-- Settles O31: the load reads each register from the address where the store put it. -/
theorem storeThenLoadGivesTheRegistersBack : Obligations.StoreThenLoadGivesTheRegistersBack := by
  intro x s hm
  refine ⟨_, exec_storeRegs x s, fun t' hi hmem => ⟨_, exec_loadRegs x t', fun r hr => ?_, ?_⟩⟩
  · calc ((t'.setRegList 0 (t'.operandBytes (x.val + 1))).setI (t'.effAddr (x.val + 1))).reg r
      _ = t'.memRead (t'.i + BitVec.ofNat 16 r.val) := (t'.reg_load x r).trans (if_pos hr)
      _ = (s.memWriteList s.i (s.regList x)).memRead (s.i + BitVec.ofNat 16 r.val) := by rw [hi]; exact hmem _
      _ = s.reg r := State.memRead_store_regList hm hr
  · simp [State.effAddr, hi]

end Sys2Proof.Machine
end

