-- ==== Sys2Proof/Proofs/CallStack.lean ====
section
/-! SUPPORT. The call stack (40_control.md section 2): a call saves, a return takes back, and the two in a row. -/

namespace Sys2Proof.Machine

/-- The state after a call with a free slot (rule R104). -/
def State.called (s : State) (nnn : Addr12) (hk : s.sp.val < Config.stackDepth) : State :=
  ({ s with stack := s.stack.set s.sp.val s.pc hk, sp := ⟨s.sp.val + 1, Nat.succ_lt_succ hk⟩ } : State).setPc
    (immAddr nnn)

/-- The state after a return that finds its address in slot `SP - 1` (rule R102). -/
def State.returned (s : State) (hk : s.sp.val - 1 < Config.stackDepth) : State :=
  ({ s with sp := ⟨s.sp.val - 1, Nat.lt_succ_of_lt hk⟩ } : State).setPc s.stack[s.sp.val - 1]

theorem exec_call_of_lt {s : State} (nnn : Addr12) (hk : s.sp.val < Config.stackDepth) :
    exec (.call nnn) s = .next (s.called nnn hk) :=
  exec_call_of_push_some (State.push?_of_lt hk)

theorem exec_ret_of_pos {s : State} (h0 : 0 < s.sp.val) (hk : s.sp.val - 1 < Config.stackDepth) :
    exec .ret s = .next (s.returned hk) :=
  exec_ret_of_pop_some (State.pop?_of_pos h0 hk)

theorem sameBut_called (s : State) (nnn : Addr12) (hk : s.sp.val < Config.stackDepth) :
    SameBut [.pc, .stack] s (s.called nnn hk) := by
  apply sameBut_of_fields <;> simp [State.called]

theorem sameBut_returned (s : State) (hk : s.sp.val - 1 < Config.stackDepth) :
    SameBut [.pc, .stack] s (s.returned hk) := by
  apply sameBut_of_fields <;> simp [State.returned]

/-- The slot below `SP` exists. -/
theorem State.sp_sub_one_lt (s : State) : s.sp.val - 1 < Config.stackDepth := by
  have := s.sp.isLt
  simp only [Config.stackDepth] at *
  omega

/-- Settles O14: the push writes the advanced `PC` into slot `SP` and the jump writes `PC`. -/
theorem callSavesThePcAndJumps : Obligations.CallSavesThePcAndJumps := by
  intro nnn s hk
  refine ⟨_, exec_call_of_lt nnn hk, toNat_immAddr nnn, rfl, fun k h => ?_, sameBut_called s nnn hk⟩
  simp only [State.called, State.setPc_stack, Vector.getElem_set, eq_comm]

/-- Settles O15: the pop reads the slot below `SP` and lowers `SP`. -/
theorem returnTakesTheSavedPc : Obligations.ReturnTakesTheSavedPc :=
  fun s h0 => ⟨_, exec_ret_of_pos h0 s.sp_sub_one_lt, fun _ => rfl, rfl, rfl, sameBut_returned s _⟩

/-- Settles O16: the return pops the slot that the call filled, which is above every slot saved before. -/
theorem callThenReturnComesBack : Obligations.CallThenReturnComesBack := by
  intro s nnn hh hf hk
  let t := s.advance.called nnn hk
  have call_step : step s = .next t := (step_of_instr hh hf).trans (exec_call_of_lt (s := s.advance) nnn hk)
  refine ⟨t, call_step, fun hret => ?_⟩
  have return_step : step t = .next (t.advance.returned hk) :=
    (step_of_instr (s := t) hh hret).trans (exec_ret_of_pos (s := t.advance) (Nat.succ_pos _) hk)
  have fetch_frame (u : State) : SameBut [.pc, .stack] u u.advance := (sameBut_advance u).weaken (by simp)
  have call_frame : SameBut [.pc, .stack] s t := (fetch_frame s).trans (sameBut_called s.advance nnn hk)
  have return_frame : SameBut [.pc, .stack] t (t.advance.returned hk) :=
    (fetch_frame t).trans (sameBut_returned t.advance hk)
  refine ⟨_, return_step, ?_, rfl, fun k h hlt => ?_, call_frame.trans return_frame⟩
  · simp [t, State.returned, State.called]
  · simp [t, State.returned, State.called, Nat.ne_of_gt hlt]

end Sys2Proof.Machine
end

