-- ==== Sys2Proof/Proofs/SingleWrites.lean ====
section
/-! SUPPORT. The remaining instructions of one write (40_control.md section 3, 41_alu.md sections 3 and 4, 42_index_memory.md section 1, 43_display.md, 44_input_timers.md): 9xyN, 8xy6, Cxnn, Fx29, 00E0, Ex9E, ExA1, Fx0A and Fx18. -/

namespace Sys2Proof.Machine

/-- Settles O18: 9xyN is one skip on difference, and its low nibble is not read. -/
theorem skipOnRegisterComparison : Obligations.SkipOnRegisterComparison :=
  fun x y n s => ⟨_, exec_sneReg x y n s, s.skipIf_bne_pc _ _, sameBut_skipIf s _⟩

/-! ### Shift and random byte -/

theorem toNat_shr8 (a : Byte) : (shr8 a).toNat = a.toNat / 2 := by
  have := a.isLt
  exact Nat.mod_eq_of_lt (by omega)

/-- The flag of 8xy6 is the remainder of the halving. -/
theorem toNat_flagByte_shiftedOutOf (a : Byte) : (flagByte (shiftedOutOf a)).toNat = a.toNat % 2 := by
  rw [toNat_flagByte, shiftedOutOf, BitVec.getLsbD, Nat.testBit_zero]
  rcases Nat.mod_two_eq_zero_or_one a.toNat with h | h <;> simp [h]

/-- Settles O24: the value is written after the flag, so it is what VF holds with x = F. -/
theorem shiftRightHalvesAndKeepsTheLostBit : Obligations.ShiftRightHalvesAndKeepsTheLostBit := by
  refine fun x y s => ⟨_, exec_shr x y s, fun r => ?_, (sameBut_setVF s _).trans (sameBut_setReg _ x _)⟩
  rw [State.reg_setReg, State.reg_setVF, apply_ite BitVec.toNat, apply_ite BitVec.toNat, toNat_shr8,
    toNat_flagByte_shiftedOutOf]

/-- Settles O25: one register write of the draw AND the mask, and one step of the counter. -/
theorem randomByteIsDrawnAndMasked : Obligations.RandomByteIsDrawnAndMasked := by
  rintro x nn s r rfl
  refine ⟨_, exec_rnd x nn s, fun k => ?_, fun q hq => ?_, rfl, sameBut_rndWith s _ x nn⟩
  · rw [State.reg_rndWith, if_pos rfl, BitVec.getLsbD_and]
  · rw [State.reg_rndWith, if_neg hq]

/-! ### Glyph address -/

/-- Five times a byte does not wrap at 16 bits (rule R142). -/
theorem toNat_glyphAddr (a : Byte) : (glyphAddr a).toNat = 5 * a.toNat := by
  have ha := a.isLt
  have no_wrap : (Config.fontBase + Config.glyphBytes * a.toNat) % 65536 = 5 * a.toNat := by
    simp only [Config.fontBase, Config.glyphBytes]
    omega
  exact no_wrap

/-- Settles O27: one write to `I`. -/
theorem glyphAddressIsFiveTimesTheByte : Obligations.GlyphAddressIsFiveTimesTheByte :=
  fun x s => ⟨_, exec_ldF x s, toNat_glyphAddr _, sameBut_setI s _⟩

/-! ### Clear -/

/-- Settles O33: one write of the display with every pixel off. -/
theorem clearTurnsEveryPixelOff : Obligations.ClearTurnsEveryPixelOff :=
  fun s => ⟨_, exec_cls s, Grid.get_clear, rfl, sameBut_setDisp s _⟩

/-! ### Keys -/

theorem keyIndex_eq {k : Fin Config.nKeys} {a : Byte} (h : k.val = a.toNat % 16) : keyIndex a = k :=
  Fin.ext h.symm

/-- Settles O37: each of Ex9E and ExA1 is one skip, on complementary conditions. -/
theorem keySkipsTestTheNamedKey : Obligations.KeySkipsTestTheNamedKey := by
  intro x k s hk
  refine ⟨⟨_, exec_skp x s, ?_, sameBut_skipIf s _⟩, ⟨_, exec_sknp x s, ?_, sameBut_skipIf s _⟩⟩
  · rw [keyIndex_eq hk, State.skipIf_pc]
  · rw [keyIndex_eq hk, State.skipIf_pc]
    cases s.keyHeld k <;> rfl

/-- Settles O38: one register write of the index that the search from 0 finds first. -/
theorem keyWaitTakesTheLeastHeldKey : Obligations.KeyWaitTakesTheLeastHeldKey := by
  intro x k s hk hleast
  have index_fits : (BitVec.ofNat 8 k.val).toNat = k.val := Nat.mod_eq_of_lt (k.isLt.trans (by decide))
  refine ⟨_, exec_ldVxK_of_some (State.leastKey?_of_least hk hleast), ?_, fun r hr => s.reg_setReg_other _ hr,
    sameBut_setReg s x _⟩
  rw [State.reg_setReg_same, index_fits]

/-! ### Sound -/

/-- The sound is on exactly when the sound timer is not 0 (rule R212). -/
theorem State.soundOn_iff {s : State} : s.soundOn = true ↔ s.st ≠ 0 := by
  rw [State.soundOn, decide_eq_true_eq, gt_iff_lt, Nat.pos_iff_ne_zero, ne_eq, ne_eq, BitVec.toNat_eq]
  rfl

/-- Settles O41: one write to `ST`, which alone sets the level. -/
theorem soundTimerLoadSetsTheSoundLevel : Obligations.SoundTimerLoadSetsTheSoundLevel :=
  fun x s => ⟨_, exec_ldStVx x s, rfl, State.soundOn_iff, sameBut_setSt s _⟩

end Sys2Proof.Machine
end

