-- ==== Sys2Proof/Proofs/Draw.lean ====
section
/-! SUPPORT. Draws (43_display.md): what one Dxyn does to every pixel and to VF, and the statements about one draw and about two in a row. -/

namespace Sys2Proof.Machine

/-- The state after a draw: the blit of the memory operand at the coordinates in `V[x]` and `V[y]` (rule R161). -/
def State.drawn (x y : Reg) (n : Nibble) (s : State) : State :=
  let out := blit (s.reg x).toNat (s.reg y).toNat (s.operandBytes n.toNat) (s.disp, false)
  (s.setVF out.2).setDisp out.1

theorem exec_drw (x y : Reg) (n : Nibble) (s : State) : exec (.drw x y n) s = .next (s.drawn x y n) := rfl

/-- The draw of this sprite at these registers lands on this pixel (rule R162). -/
def State.drawLands (x y : Reg) (n : Nibble) (s : State) (row : Fin Config.dispH) (col : Fin Config.dispW) : Prop :=
  s.spriteLands (s.reg x).toNat (s.reg y).toNat n.toNat row col

/-! ### One draw -/

/-- A sprite has at most 15 rows, so none of them wraps onto another. -/
theorem State.length_operandBytes_le (s : State) (n : Nibble) : (s.operandBytes n.toNat).length ≤ 32 := by
  have := n.isLt
  rw [State.length_operandBytes]
  omega

theorem State.pixel_drawn_of_lands {x y : Reg} {n : Nibble} {s : State} {row : Fin Config.dispH}
    {col : Fin Config.dispW} (h : s.drawLands x y n row col) : (s.drawn x y n).pixel row col = !s.pixel row col :=
  (blit_spec _ _ (s.length_operandBytes_le n) _ _).1 row col ((s.bytesLand_operandBytes ..).mpr h)

theorem State.pixel_drawn_of_not_lands {x y : Reg} {n : Nibble} {s : State} {row : Fin Config.dispH}
    {col : Fin Config.dispW} (h : ¬ s.drawLands x y n row col) : (s.drawn x y n).pixel row col = s.pixel row col :=
  (blit_spec _ _ (s.length_operandBytes_le n) _ _).2.1 row col fun hl => h ((s.bytesLand_operandBytes ..).mp hl)

/-- A draw changes no register but VF. -/
theorem State.reg_drawn_of_ne {x y r : Reg} {n : Nibble} {s : State} (hr : r ≠ regF) :
    (s.drawn x y n).reg r = s.reg r :=
  s.reg_setReg_other _ hr

theorem flagByte_eq_one {f : Bool} : flagByte f = 0x01 ↔ f = true := by cases f <;> decide

theorem flagByte_eq_zero {f : Bool} : flagByte f = 0x00 ↔ f = false := by cases f <;> decide

/-- VF after a draw is the flag of the blit. -/
theorem State.reg_drawn_VF (x y : Reg) (n : Nibble) (s : State) :
    (s.drawn x y n).reg regF =
      flagByte (blit (s.reg x).toNat (s.reg y).toNat (s.operandBytes n.toNat) (s.disp, false)).2 :=
  s.reg_setReg_same regF _

/-- A draw reports a collision exactly when it lands on a pixel that was on (rule R161). -/
theorem State.reg_drawn_VF_eq_one {x y : Reg} {n : Nibble} {s : State} :
    (s.drawn x y n).reg regF = 0x01 ↔ ∃ row col, s.drawLands x y n row col ∧ s.pixel row col = true := by
  rw [State.reg_drawn_VF, flagByte_eq_one, (blit_spec _ _ (s.length_operandBytes_le n) _ _).2.2]
  simp only [Bool.false_eq_true, false_or, State.bytesLand_operandBytes]
  rfl

/-- VF after a draw is one of the two flag values (rule R22). -/
theorem State.reg_drawn_VF_cases (x y : Reg) (n : Nibble) (s : State) :
    (s.drawn x y n).reg regF = 0x00 ∨ (s.drawn x y n).reg regF = 0x01 := by
  rw [State.reg_drawn_VF, flagByte_eq_zero, flagByte_eq_one]
  exact Bool.eq_false_or_eq_true _ |>.symm

theorem sameBut_drawn (x y : Reg) (n : Nibble) (s : State) : SameBut [.v, .disp, .dirty] s (s.drawn x y n) :=
  (sameBut_setVF s _).append (sameBut_setDisp _ _)

/-- Settles O34: the pixels that the blit flips and its flag, in the terms of where the sprite lands. -/
theorem drawXorsTheSpriteAndReportsCollision : Obligations.DrawXorsTheSpriteAndReportsCollision := by
  intro x y n s
  refine ⟨_, exec_drw x y n s, fun _ _ h => State.pixel_drawn_of_lands h, fun _ _ h => State.pixel_drawn_of_not_lands h,
    State.reg_drawn_VF_eq_one.mpr, fun hoff => ?_, fun _ hr => State.reg_drawn_of_ne hr, rfl, sameBut_drawn x y n s⟩
  refine (s.reg_drawn_VF_cases x y n).resolve_right fun h1 => ?_
  obtain ⟨row, col, hl, hon⟩ := State.reg_drawn_VF_eq_one.mp h1
  exact absurd hon (by simp [hoff row col hl])

/-! ### Two draws -/

/-- Where a draw lands depends on its two coordinate registers, `I` and memory alone. -/
theorem State.drawLands_congr {s t : State} {x y : Reg} {n : Nibble} (hx : t.reg x = s.reg x) (hy : t.reg y = s.reg y)
    (hi : t.i = s.i) (hm : t.mem = s.mem) (row : Fin Config.dispH) (col : Fin Config.dispW) :
    t.drawLands x y n row col ↔ s.drawLands x y n row col := by
  rw [State.drawLands, State.drawLands, hx, hy, State.spriteLands_congr hi (State.memRead_of_mem hm)]

/-- The second of two equal draws lands where the first did. -/
theorem State.drawLands_drawn {x y : Reg} (hx : x ≠ regF) (hy : y ≠ regF) (n : Nibble) (s : State)
    (row : Fin Config.dispH) (col : Fin Config.dispW) :
    (s.drawn x y n).drawLands x y n row col ↔ s.drawLands x y n row col :=
  State.drawLands_congr (State.reg_drawn_of_ne hx) (State.reg_drawn_of_ne hy) rfl rfl row col

/-- A draw of another sprite, before the draw of the sprite at `a`, does not move the latter. -/
theorem State.drawLands_drawn_setI {x y x' y' : Reg} (hx : x ≠ regF) (hy : y ≠ regF) (n n' : Nibble) (a a' : Word)
    (s : State) (row : Fin Config.dispH) (col : Fin Config.dispW) :
    (((s.setI a').drawn x' y' n').setI a).drawLands x y n row col ↔ (s.setI a).drawLands x y n row col :=
  State.drawLands_congr (s := s.setI a) (t := ((s.setI a').drawn x' y' n').setI a)
    (State.reg_drawn_of_ne (s := s.setI a') hx) (State.reg_drawn_of_ne (s := s.setI a') hy) rfl rfl row col

/-- Settles O35: the second draw flips back the pixels that the first flipped, and finds on those that were off. -/
theorem drawingTwiceRestoresTheDisplay : Obligations.DrawingTwiceRestoresTheDisplay := by
  intro x y n s hx hy
  have lands := State.drawLands_drawn hx hy n s
  refine ⟨_, _, exec_drw x y n s, exec_drw x y n _, fun row col => ?_, ?_, State.reg_drawn_VF_cases x y n _⟩
  · by_cases h : s.drawLands x y n row col
    · rw [State.pixel_drawn_of_lands ((lands row col).mpr h), State.pixel_drawn_of_lands h, Bool.not_not]
    · rw [State.pixel_drawn_of_not_lands (mt (lands row col).mp h), State.pixel_drawn_of_not_lands h]
  · refine State.reg_drawn_VF_eq_one.trans (exists_congr fun row => exists_congr fun col => ?_)
    rw [lands row col]
    refine and_congr_right fun h => ?_
    rw [State.pixel_drawn_of_lands h, Bool.not_eq_true']

/-- A pixel after a draw as an exclusive or with the sprite. -/
theorem State.pixel_drawn (x y : Reg) (n : Nibble) (s : State) (row : Fin Config.dispH) (col : Fin Config.dispW)
    [Decidable (s.drawLands x y n row col)] :
    (s.drawn x y n).pixel row col = (s.pixel row col ^^ decide (s.drawLands x y n row col)) := by
  by_cases h : s.drawLands x y n row col
  · rw [State.pixel_drawn_of_lands h]; simp [h]
  · rw [State.pixel_drawn_of_not_lands h]; simp [h]

open Classical in
/-- The pixels after the draw of one sprite and then of another. -/
theorem State.pixel_drawn_drawn {x y x' y' : Reg} (hx' : x' ≠ regF) (hy' : y' ≠ regF) (n n' : Nibble) (a a' : Word)
    (s : State) (row : Fin Config.dispH) (col : Fin Config.dispW) :
    ((((s.setI a).drawn x y n).setI a').drawn x' y' n').pixel row col =
      ((s.pixel row col ^^ decide ((s.setI a).drawLands x y n row col)) ^^
        decide ((s.setI a').drawLands x' y' n' row col)) := by
  rw [State.pixel_drawn, decide_eq_decide.mpr (State.drawLands_drawn_setI hx' hy' n' n a' a s row col)]
  exact congrArg (· ^^ _) (State.pixel_drawn x y n (s.setI a) row col)

/-- Settles O36: either order flips a pixel once for each sprite that lands on it. -/
theorem drawsOfDifferentSpritesCommute : Obligations.DrawsOfDifferentSpritesCommute := by
  intro x y x' y' n n' a a' s hx hy hx' hy'
  refine ⟨_, _, _, _, exec_drw x y n _, exec_drw x' y' n' _, exec_drw x' y' n' _, exec_drw x y n _, fun row col => ?_⟩
  rw [State.pixel_drawn_drawn hx' hy', State.pixel_drawn_drawn hx hy, Bool.xor_right_comm]

end Sys2Proof.Machine
end

