-- ==== Sys2Proof/Proofs/HostRuns.lean ====
section
/-! SUPPORT. The host's operations and lists of them (60_exceptions.md, 70_reset_and_hazards.md): Tick, FrameAck and Reset, the draws of the random input that are never taken twice, and the halt that lasts until a Reset. -/

namespace Sys2Proof.Machine

/-! ### Tick and FrameAck -/

theorem act_tick (s : State) : act .tick s = .next s.tick := rfl

theorem act_frameAck (s : State) : act .frameAck s = .next s.frameAck := rfl

/-- Settles O42: the two timers go down by the same rule, each on its own. -/
theorem tickLowersEachTimerByOne : Obligations.TickLowersEachTimerByOne :=
  fun s => ⟨_, act_tick s, toNat_tickDown s.dt, toNat_tickDown s.st, sameBut_tick s⟩

/-- Settles O43, by induction on the number of Ticks. -/
theorem manyTicksCountDownToZero : Obligations.ManyTicksCountDownToZero := by
  intro n
  induction n with
  | zero => exact fun s => ⟨s, rfl, rfl, rfl, SameBut.refl _ s⟩
  | succ n ih =>
    intro s
    obtain ⟨t, hrun, hdt, hst, hframe⟩ := ih s.tick
    refine ⟨t, hrun, ?_, ?_, (sameBut_tick s).trans hframe⟩
    · rw [hdt, State.tick_dt, toNat_tickDown, Nat.sub_sub, Nat.add_comm]
    · rw [hst, State.tick_st, toNat_tickDown, Nat.sub_sub, Nat.add_comm]

/-- Settles O45: one write to the dirty signal. -/
theorem frameAckClearsTheDirtySignal : Obligations.FrameAckClearsTheDirtySignal :=
  fun s => ⟨_, act_frameAck s, rfl, sameBut_frameAck s⟩

/-! ### Reset -/

/-- Outside the ROM a Reset leaves memory as a Reset with the empty ROM does (rules R241, R242). -/
theorem State.memRead_loadRom_other (s : State) {rom : List Byte} (hfit : rom.length ≤ Config.romMax) {a : Word}
    (ha : ∀ k < rom.length, memIndex a ≠ 0x200 + k) : (s.loadRom rom).memRead a = s.memRead a := by
  refine s.memRead_memWriteList_other 0x200 rom fun k hk => ?_
  rw [memIndex_rom (hk.trans_le hfit)]
  exact ha k hk

/-- The reset state with another count of draws and a ROM agrees with the reset state on all but memory and draws. -/
theorem sameBut_loadRom_reset (n : Nat) (rom : List Byte) :
    SameBut [.draws, .mem] State.reset (({ State.reset with draws := n } : State).loadRom rom) := by
  have counter : SameBut [.draws] State.reset { State.reset with draws := n } := by
    apply sameBut_of_fields <;> simp
  exact counter.append (sameBut_memWriteList _ _ rom)

theorem State.reg_reset (r : Reg) : State.reset.reg r = 0 := by simp [State.reset, State.reg]

theorem State.pixel_reset (row : Fin Config.dispH) (col : Fin Config.dispW) : State.reset.pixel row col = false :=
  Grid.get_clear row col

theorem State.keyHeld_reset (k : Fin Config.nKeys) : State.reset.keyHeld k = false := by
  simp [State.reset, State.keyHeld]

/-- Settles O47: the values of the reset state, which the ROM leaves alone outside its own bytes. -/
theorem resetZeroesTheRegisters : Obligations.ResetZeroesTheRegisters := by
  intro rom s hfit
  have same := sameBut_loadRom_reset s.draws rom
  refine ⟨_, act_reset_of_le hfit s, fun r => ?_, ?_, ?_, ?_, ?_, ?_, fun row col => ?_, fun k => ?_, ?_, ?_,
    fun a ha => ?_⟩
  · exact (same .v (by decide) r).trans (State.reg_reset r)
  · exact same .i (by decide)
  · exact same .pc (by decide)
  · exact congrArg Fin.val (same .stack (by decide)).2
  · exact same .dt (by decide)
  · exact same .st (by decide)
  · exact (same .disp (by decide) row col).trans (State.pixel_reset row col)
  · exact (same .key (by decide) k).trans (State.keyHeld_reset k)
  · exact same .dirty (by decide)
  · rw [State.statusExport, same .halted (by decide), same .err (by decide)]
    rfl
  · exact State.memRead_loadRom_other { State.reset with draws := s.draws } hfit ha

/-! ### Draws of the random input -/

/-- A step takes one draw of the random input or none. -/
theorem step_draws_le {s t : State} (h : step s = .next t) : s.draws ≤ t.draws := by
  obtain ⟨-, rfl⟩ | ⟨-, i, -, he⟩ | ⟨-, -, rfl⟩ | ⟨-, -, rfl⟩ := step_cases h
  · exact le_refl _
  · have one_or_none := exec_draws he
    rw [State.advance_draws] at one_or_none
    omega
  · exact le_refl _
  · exact le_refl _

/-- No operation rewinds the random input, a Reset neither (rule R129; log 12). -/
theorem act_draws_le {op : HostOp} {s t : State} (h : act op s = .next t) : s.draws ≤ t.draws := by
  cases op with
  | reset rom =>
    rw [act_reset_eq_next h, State.loadRom, State.memWriteList_draws]
  | step => exact step_draws_le h
  | tick => cases h; exact le_refl _
  | keySet k v => cases h; exact le_refl _
  | frameAck => cases h; exact le_refl _

/-- Settles O48: the Cxnn moves the random input past its draw, and no operation moves it back. -/
theorem noDrawIsTakenTwice : Obligations.NoDrawIsTakenTwice := by
  intro x nn ops s t u hrnd hrun
  have past : s.draws < t.draws := by
    rw [exec_rnd] at hrnd
    cases hrnd
    exact Nat.lt_succ_self _
  exact runOps_keeps (P := fun v => s.draws < v.draws) (fun _ _ _ _ hlt ha => hlt.trans_le (act_draws_le ha)) past hrun

/-! ### The halt lasts until a Reset -/

/-- On a halted core an operation that is no Reset touches the timers, the keys and DIRTY at most (rule R207). -/
theorem act_of_halted {op : HostOp} (hop : op.keepsMachine = true) {s : State} (h : s.halted = true) :
    ∃ t, act op s = .next t ∧ SameBut [.dt, .st, .key, .dirty] s t := by
  cases op with
  | reset rom => exact absurd hop Bool.false_ne_true
  | step => exact ⟨s, step_of_halted h, SameBut.refl _ s⟩
  | tick => exact ⟨_, act_tick s, (sameBut_tick s).weaken (by simp)⟩
  | keySet k v => exact ⟨_, act_keySet k v s, (sameBut_keySet s k v).weaken (by simp)⟩
  | frameAck => exact ⟨_, act_frameAck s, (sameBut_frameAck s).weaken (by simp)⟩

/-- Settles O55, by induction on the list: the state stays halted, so each operation finds it so. -/
theorem haltPersistsUntilReset : Obligations.HaltPersistsUntilReset := by
  intro ops
  induction ops with
  | nil => exact fun s _ _ => ⟨s, rfl, SameBut.refl _ s⟩
  | cons op ops ih =>
    intro s h hops
    obtain ⟨hop, hops⟩ := List.forall_mem_cons.mp hops
    obtain ⟨t, ht, hframe⟩ := act_of_halted hop h
    have still_halted : t.halted = true := (hframe .halted (by decide)).trans h
    obtain ⟨u, hu, hframe'⟩ := ih t still_halted hops
    exact ⟨u, runOps_cons_eq_next.mpr ⟨t, ht, hu⟩, hframe.trans hframe'⟩

/-- A list of operations that answers a state answers one at the end of each beginning. -/
theorem runOps_append_eq_next {ops ops' : List HostOp} {s u : State} :
    runOps (ops ++ ops') s = .next u ↔ ∃ t, runOps ops s = .next t ∧ runOps ops' t = .next u := by
  rw [runOps_append]
  cases runOps ops s <;> simp

/-- Settles O56: a beginning that ended halted would leave the whole run halted. -/
theorem safeRunsAreSafeThroughout : Obligations.SafeRunsAreSafeThroughout := by
  rintro ops ops' s hops ⟨u, hrun, hsafe⟩
  obtain ⟨t, ht, hu⟩ := runOps_append_eq_next.mp hrun
  refine ⟨t, ht, Bool.eq_false_iff.mpr fun h => ?_⟩
  obtain ⟨u', hu', hframe⟩ := haltPersistsUntilReset ops' t h hops
  have same : u = u' := Host.Outcome.next.inj (hu.symm.trans hu')
  have halted : u'.halted = true := (hframe .halted (by decide)).trans h
  rw [same, halted] at hsafe
  cases hsafe

end Sys2Proof.Machine
end
